-- ==== Sys2Proof/Word.lean ====
section
/-! DEFINITION. The word types of the block: every value it holds or computes is an unsigned integer of 8, 16 or
32 bits or a byte sequence (10_state.md R19), and a command word has 64 bits (30_encoding.md R38). Arithmetic on a
uN value is modulo 2^N (00_scope.md R10, R11), which is `BitVec N`'s own. -/

namespace Sys2Proof

/-- u8: a byte (00_scope.md R10). -/
abbrev Byte := BitVec 8

/-- u16: the width of a CRC and of a half-period (40_crc.md R53, 30_encoding.md R38). -/
abbrev Half := BitVec 16

/-- u32: the width of a register, of CRC_ERR_CNT and of a cycle count (10_state.md R16, R21). -/
abbrev Word := BitVec 32

/-- u64: a command word (30_encoding.md R38). -/
abbrev CmdWord := BitVec 64

end Sys2Proof
end

