-- ==== Sys2Proof/Config.lean ====
section
/-! DEFINITION. The constants of 00_scope.md section 3 and the command ids of 30_encoding.md R45, each named once
(93_implementation_defined.md I9), the block's three parameters (00_scope.md R6 to R8), and the one value the spec
leaves open. -/

namespace Sys2Proof

/-- Minimum frame length in bytes, length byte through sync byte (00_scope.md R1). -/
def Config.messageMin : Nat := 5

/-- Maximum frame length in bytes (00_scope.md R1). -/
def Config.messageMax : Nat := 128

/-- The sync byte: ends every frame and may stand between frames (00_scope.md R2). -/
def Config.sync : Byte := 0x7E

/-- The CRC initial value (00_scope.md R3). -/
def Config.crcInit : Half := 0xFFFF

/-- Bytes of a frame's trailer: two of CRC, one of sync (00_scope.md R4, decision D30). -/
def Config.trailer : Nat := 3

/-- The longest body, command_id plus args (00_scope.md R5). -/
def Config.bodyMax : Nat := messageMax - 1 - trailer

/-- Capacity of the staging buffer STG (00_scope.md R9). -/
def Config.stgCap : Nat := bodyMax

/-- command_id of DisplayText (30_encoding.md R45). -/
def Config.cmdDisplayText : Byte := 10
/-- command_id of KnobEvent (30_encoding.md R45). -/
def Config.cmdKnobEvent : Byte := 12
/-- command_id of ButtonEvent (30_encoding.md R45). -/
def Config.cmdButtonEvent : Byte := 13
/-- command_id of BuzzerPlay (30_encoding.md R45). -/
def Config.cmdBuzzerPlay : Byte := 14
/-- command_id of BuzzerToneQueue (30_encoding.md R45). -/
def Config.cmdBuzzerToneQueue : Byte := 15
/-- command_id of BuzzerEvent (30_encoding.md R45). -/
def Config.cmdBuzzerEvent : Byte := 16

/-- The fixed-length marker of BuzzerToneQueue: the number of args bytes that follow it (30_encoding.md R50). -/
def Config.toneMarker : Byte := 8

/-- DESIGN CHOICE (log entry 5, safe): the value of a 32-bit register whose quantity is 2^32 or more. 00_scope.md
R6 to R8 put no upper bound on the parameters and 10_state.md R21 states no value there, so it is free: a constant
without a body, applied to the quantity. -/
opaque Config.registerOverflow : Nat → Word

/-- The parameters fixed when the block is instantiated (00_scope.md R6, R7, R8; 70_reset_and_hazards.md R113). -/
structure Params where
  /-- BUF_CAP, the receive buffer capacity (00_scope.md R6). -/
  bufCap : Nat
  /-- FQ_DEPTH, the frame queue depth (00_scope.md R7). -/
  fqDepth : Nat
  /-- TX_CAP, the transmit queue capacity (00_scope.md R8). -/
  txCap : Nat
  deriving DecidableEq, Repr

/-- The constraints 00_scope.md R6, R7 and R8 put on the parameters. -/
abbrev Params.Ok (p : Params) : Prop :=
  Config.messageMax ≤ p.bufCap ∧ 1 ≤ p.fqDepth ∧ Config.messageMax ≤ p.txCap

/-- The reference configuration of 00_scope.md R6, R7 and R8. -/
def Params.reference : Params := { bufCap := 256, fqDepth := 4, txCap := 256 }

end Sys2Proof
end

