-- ==== Sys2Proof/Syntax.lean ====
section
/-! DEFINITION. FCE command set 1 as syntax: one constructor per row of the opcode map (30_encoding.md R39), with
the operands of 30_encoding.md R38 each command uses, in the order of the assembler syntax (30_encoding.md R42). -/

namespace Sys2Proof

/-- The sixteen commands. -/
inductive Instr where
  /-- NOP (43_control.md R97). -/
  | nop
  /-- SOFT_RESET (43_control.md R98). -/
  | softReset
  /-- REG_READ idx (43_control.md R99). -/
  | regRead (idx : Byte)
  /-- CRC_INIT (40_crc.md R59). -/
  | crcInit
  /-- CRC_BYTE b (40_crc.md R60). -/
  | crcByte (b : Byte)
  /-- CRC_READ (40_crc.md R61). -/
  | crcRead
  /-- RX_PUSH b (41_decoder.md R74). -/
  | rxPush (b : Byte)
  /-- RX_POP (41_decoder.md R75). -/
  | rxPop
  /-- STG_PUT b (42_encoder.md R86). -/
  | stgPut (b : Byte)
  /-- STG_CLEAR (42_encoder.md R87). -/
  | stgClear
  /-- ENC_SEND (42_encoder.md R88). -/
  | encSend
  /-- ENC_DISPLAY_TEXT (42_encoder.md R89). -/
  | encDisplayText
  /-- ENC_BUZZER_PLAY c: the byte A, of which only A[0] may be set (42_encoder.md R90). -/
  | encBuzzerPlay (c : Byte)
  /-- ENC_BUZZER_QUEUE cycles, half (42_encoder.md R91). -/
  | encBuzzerQueue (cycles : Word) (half : Half)
  /-- ENC_BEEP cycles, half (42_encoder.md R92). -/
  | encBeep (cycles : Word) (half : Half)
  /-- TX_PULL (42_encoder.md R93). -/
  | txPull
  deriving DecidableEq, Repr

end Sys2Proof
end

