-- ==== Sys2Proof/WellFormed.lean ====
section
/-! DEFINITION. Which terms of `Instr` are commands of FCE command set 1. Every operand fills its field of the
command word (30_encoding.md R38) but ENC_BUZZER_PLAY's: its A[7:1] is reserved and must be zero (30_encoding.md
R40, R42: "`ENC_BUZZER_PLAY c` with `c` in {0, 1}"). -/

namespace Sys2Proof

/-- The one operand check: `c` is 0 or 1. -/
def wellFormed : Instr → Bool
  | .nop => true
  | .softReset => true
  | .regRead _ => true
  | .crcInit => true
  | .crcByte _ => true
  | .crcRead => true
  | .rxPush _ => true
  | .rxPop => true
  | .stgPut _ => true
  | .stgClear => true
  | .encSend => true
  | .encDisplayText => true
  | .encBuzzerPlay c => decide (c ≤ 1)
  | .encBuzzerQueue _ _ => true
  | .encBeep _ _ => true
  | .txPull => true

end Sys2Proof
end

