-- ==== Sys2Proof/Decode.lean ====
section
/-! DEFINITION. The command word (30_encoding.md Part A): its fields (R38), the opcode map with MASK and MATCH (R39),
decoding (R37, R40, R41), its bytes on a byte-wide bus (20_memory.md R27), and the encoder. -/

namespace Sys2Proof

/-- OP, bits 7:0 (30_encoding.md R38). -/
def opField (cw : CmdWord) : Byte := cw.extractLsb' 0 8

/-- A, bits 15:8 (30_encoding.md R38). -/
def aField (cw : CmdWord) : Byte := cw.extractLsb' 8 8

/-- H, bits 31:16 (30_encoding.md R38). -/
def hField (cw : CmdWord) : Half := cw.extractLsb' 16 16

/-- W, bits 63:32 (30_encoding.md R38). -/
def wField (cw : CmdWord) : Word := cw.extractLsb' 32 32

/-- One row of the opcode map: `build` makes the command of the fields A, H and W. -/
structure OpcodeRow where
  /-- the opcode -/
  op : Byte
  /-- MASK: the bits that must equal `pattern`'s -/
  mask : CmdWord
  /-- MATCH -/
  pattern : CmdWord
  /-- the command the fields A, H, W stand for -/
  build : Byte → Half → Word → Instr

/-- The system and CRC unit families of 30_encoding.md R39. -/
def opcodeRowsLow : List OpcodeRow :=
  [ ⟨0x00, 0xFFFFFFFFFFFFFFFF, 0x0000000000000000, fun _ _ _ => .nop⟩,
    ⟨0x01, 0xFFFFFFFFFFFFFFFF, 0x0000000000000001, fun _ _ _ => .softReset⟩,
    ⟨0x02, 0xFFFFFFFFFFFF00FF, 0x0000000000000002, fun a _ _ => .regRead a⟩,
    ⟨0x10, 0xFFFFFFFFFFFFFFFF, 0x0000000000000010, fun _ _ _ => .crcInit⟩,
    ⟨0x11, 0xFFFFFFFFFFFF00FF, 0x0000000000000011, fun a _ _ => .crcByte a⟩,
    ⟨0x12, 0xFFFFFFFFFFFFFFFF, 0x0000000000000012, fun _ _ _ => .crcRead⟩ ]

/-- The decoder, encoder and transmit port families of 30_encoding.md R39. -/
def opcodeRowsHigh : List OpcodeRow :=
  [ ⟨0x20, 0xFFFFFFFFFFFF00FF, 0x0000000000000020, fun a _ _ => .rxPush a⟩,
    ⟨0x21, 0xFFFFFFFFFFFFFFFF, 0x0000000000000021, fun _ _ _ => .rxPop⟩,
    ⟨0x30, 0xFFFFFFFFFFFF00FF, 0x0000000000000030, fun a _ _ => .stgPut a⟩,
    ⟨0x31, 0xFFFFFFFFFFFFFFFF, 0x0000000000000031, fun _ _ _ => .stgClear⟩,
    ⟨0x32, 0xFFFFFFFFFFFFFFFF, 0x0000000000000032, fun _ _ _ => .encSend⟩,
    ⟨0x33, 0xFFFFFFFFFFFFFFFF, 0x0000000000000033, fun _ _ _ => .encDisplayText⟩,
    ⟨0x34, 0xFFFFFFFFFFFFFEFF, 0x0000000000000034, fun a _ _ => .encBuzzerPlay a⟩,
    ⟨0x35, 0x000000000000FFFF, 0x0000000000000035, fun _ h w => .encBuzzerQueue w h⟩,
    ⟨0x36, 0x000000000000FFFF, 0x0000000000000036, fun _ h w => .encBeep w h⟩,
    ⟨0x40, 0xFFFFFFFFFFFFFFFF, 0x0000000000000040, fun _ _ _ => .txPull⟩ ]

/-- The opcode map of FCE command set 1 (30_encoding.md R39). -/
def opcodeTable : List OpcodeRow := opcodeRowsLow ++ opcodeRowsHigh

/-- Why a word is no command. -/
inductive DecodeError where
  /-- OP is not an opcode of the map (30_encoding.md R41). -/
  | badOp
  /-- OP is an opcode and a reserved bit is nonzero (30_encoding.md R40). -/
  | rsvd
  deriving DecidableEq, Repr

/-- The first two lines of `step` in 30_encoding.md R37: the opcode is looked up, then the reserved bits are
checked. -/
def decode (cw : CmdWord) : Except DecodeError Instr :=
  match opcodeTable.find? (fun r => r.op == opField cw) with
  | none => .error .badOp
  | some r =>
    if cw &&& r.mask = r.pattern then .ok (r.build (aField cw) (hField cw) (wField cw)) else .error .rsvd

/-- The eight bytes of a command word on a byte-wide bus, least significant first: byte `k` is bits 8k+7 to 8k
(20_memory.md R27). -/
def wordBytes (cw : CmdWord) : List Byte :=
  (List.range 8).map fun k => cw.extractLsb' (8 * k) 8

/-- The word whose bytes are `bs`, least significant first (20_memory.md R27). -/
def wordOfBytes (bs : List Byte) : CmdWord := bs.foldr (fun b high => (high <<< 8) ||| b.setWidth 64) 0

/-- The command word carried by the first eight bytes of a transfer, and the bytes after it; none while fewer than
eight bytes have arrived (20_memory.md R27). -/
def takeWord : List Byte → Option (CmdWord × List Byte)
  | b0 :: b1 :: b2 :: b3 :: b4 :: b5 :: b6 :: b7 :: rest =>
    some (wordOfBytes [b0, b1, b2, b3, b4, b5, b6, b7], rest)
  | _ => none

/-- Decoding from bytes: none while no whole command word is there, else the word's decoding and the bytes after
it. -/
def decodeBytes (bs : List Byte) : Option (Except DecodeError Instr × List Byte) :=
  (takeWord bs).map fun (cw, rest) => (decode cw, rest)

/-- The bytes in which an instruction of the opcode table is laid out: the low `nbits` bits of `w`, every bit above
them zero. -/
def tableWord (nbits w : Nat) : CmdWord := BitVec.ofNat 64 (w % 2 ^ nbits)

/-- The command the decoder reads from the bits `w` of an opcode-table row, laid out as bytes in the bus order. -/
def decodeTableWord (nbits w : Nat) : Option Instr :=
  match decodeBytes (wordBytes (tableWord nbits w)) with
  | some (.ok i, _) => some i
  | _ => none

/-! The encoder, written from the same map. -/

/-- A command word of its four fields (30_encoding.md R38). -/
def packWord (op a : Byte) (h : Half) (w : Word) : CmdWord :=
  (w.setWidth 64 <<< 32) ||| (h.setWidth 64 <<< 16) ||| (a.setWidth 64 <<< 8) ||| op.setWidth 64

/-- The opcode of each command (30_encoding.md R39). -/
def opcodeOf : Instr → Byte
  | .nop => 0x00
  | .softReset => 0x01
  | .regRead _ => 0x02
  | .crcInit => 0x10
  | .crcByte _ => 0x11
  | .crcRead => 0x12
  | .rxPush _ => 0x20
  | .rxPop => 0x21
  | .stgPut _ => 0x30
  | .stgClear => 0x31
  | .encSend => 0x32
  | .encDisplayText => 0x33
  | .encBuzzerPlay _ => 0x34
  | .encBuzzerQueue _ _ => 0x35
  | .encBeep _ _ => 0x36
  | .txPull => 0x40

/-- The operand byte A of each command, zero where the field is reserved (30_encoding.md R38, R39). -/
def aOperand : Instr → Byte
  | .regRead idx => idx
  | .crcByte b => b
  | .rxPush b => b
  | .stgPut b => b
  | .encBuzzerPlay c => c
  | .nop | .softReset | .crcInit | .crcRead | .rxPop | .stgClear | .encSend | .encDisplayText
  | .encBuzzerQueue _ _ | .encBeep _ _ | .txPull => 0

/-- The operand half-word H of each command, zero where the field is reserved (30_encoding.md R38, R39). -/
def hOperand : Instr → Half
  | .encBuzzerQueue _ half => half
  | .encBeep _ half => half
  | .nop | .softReset | .regRead _ | .crcInit | .crcByte _ | .crcRead | .rxPush _ | .rxPop | .stgPut _ | .stgClear
  | .encSend | .encDisplayText | .encBuzzerPlay _ | .txPull => 0

/-- The operand word W of each command, zero where the field is reserved (30_encoding.md R38, R39). -/
def wOperand : Instr → Word
  | .encBuzzerQueue cycles _ => cycles
  | .encBeep cycles _ => cycles
  | .nop | .softReset | .regRead _ | .crcInit | .crcByte _ | .crcRead | .rxPush _ | .rxPop | .stgPut _ | .stgClear
  | .encSend | .encDisplayText | .encBuzzerPlay _ | .txPull => 0

/-- The command word of a command (30_encoding.md R38, R39). -/
def encode (i : Instr) : CmdWord := packWord (opcodeOf i) (aOperand i) (hOperand i) (wOperand i)

/-- A command as the eight bytes of its word (20_memory.md R27). -/
def encodeBytes (i : Instr) : List Byte := wordBytes (encode i)

end Sys2Proof
end

