-- ==== Sys2Proof/Machine/State.lean ====
section
/-! DEFINITION. The state of the block (10_state.md R12), the responses it gives (60_exceptions.md R100), and the
machine's state: the block, its parameters, the command port and the responses given. -/

namespace Sys2Proof.Machine

/-- The status codes of 60_exceptions.md R102. -/
inductive Status where
  /-- E_OK: the command was performed. -/
  | ok
  /-- E_BADOP: OP is not an opcode. -/
  | badOp
  /-- E_RSVD: a reserved field is nonzero, or ENC_BUZZER_PLAY has A above 1. -/
  | rsvd
  /-- E_BADREG: register index above 0x08. -/
  | badReg
  /-- E_RXFULL: RXBUF holds BUF_CAP bytes. -/
  | rxFull
  /-- E_FQEMPTY: no frame in FQ. -/
  | fqEmpty
  /-- E_STGFULL: STG holds STG_CAP bytes. -/
  | stgFull
  /-- E_LEN: the frame length would not be a decodable length. -/
  | badLength
  /-- E_TXFULL: TXQ lacks room for the whole frame or frame pair. -/
  | txFull
  /-- E_TXEMPTY: TXQ is empty. -/
  | txEmpty
  deriving DecidableEq, Repr

/-- The data of a response (60_exceptions.md R100). -/
inductive RespData where
  | none
  | byte (b : Byte)
  | half (h : Half)
  | word (w : Word)
  | frame (f : List Byte)
  deriving DecidableEq, Repr

/-- A response: status and data (60_exceptions.md R100). -/
structure Response where
  status : Status
  data : RespData
  deriving DecidableEq, Repr

/-- The state `S` of the block: exactly the six elements of 10_state.md R12. -/
structure Block where
  /-- CRC_ACC (10_state.md R13). -/
  crcAcc : Half
  /-- RXBUF, head first (10_state.md R14). -/
  rxBuf : List Byte
  /-- FQ, oldest frame first (10_state.md R15). -/
  fq : List (List Byte)
  /-- CRC_ERR_CNT (10_state.md R16). -/
  crcErrCnt : Word
  /-- STG, first byte put first (10_state.md R17). -/
  stg : List Byte
  /-- TXQ, next byte to transmit first (10_state.md R18). -/
  txq : List Byte
  deriving DecidableEq, Repr

/-- The machine: the block and what the spec calls its configuration, input and output. -/
structure State where
  /-- The six elements of 10_state.md R12. -/
  block : Block
  /-- The parameters the block was instantiated with (00_scope.md R6 to R8); no command changes them. The model's
  own field (log entry 4). -/
  params : Params
  /-- The command stream at the command port: the words that have reached it and are not yet executed, the next
  one first (20_memory.md R30). The model's own field (log entry 1). -/
  port : List CmdWord
  /-- The responses given so far, one per command, in order (70_reset_and_hazards.md R122). The model's own field
  (log entry 2). -/
  responses : List Response
  deriving DecidableEq, Repr

/-- Reasons for which a step stops the machine: there are none. The block has no trap and never stops, halts or hangs
(60_exceptions.md R107, 70_reset_and_hazards.md R122); a command that cannot be performed is answered with a status,
in a next state (60_exceptions.md R101; log entry 13). -/
inductive Fault where
  deriving DecidableEq, Repr

/-- Reasons for which the model gives a command no meaning. -/
inductive Refusal where
  /-- Raised by `exec`'s arm of a command that has no meaning yet; no arm raises it. Safe: nothing is claimed of such a
  command. -/
  | notModelled (mnemonic : String)
  deriving DecidableEq, Repr

/-- The reset value of every element (70_reset_and_hazards.md R112). -/
def Block.reset : Block :=
  { crcAcc := Config.crcInit, rxBuf := [], fq := [], crcErrCnt := 0, stg := [], txq := [] }

/-- The machine after power-on reset of a block instantiated with `p` (70_reset_and_hazards.md R111, R112): nothing is
on the port and nothing has been answered (log entries 1, 2). -/
def State.resetWith (p : Params) : State :=
  { block := Block.reset, params := p, port := [], responses := [] }

/-- The machine after power-on reset in the reference configuration (00_scope.md R6 to R8; log entry 4). -/
def State.reset : State := State.resetWith Params.reference

end Sys2Proof.Machine
end

