-- ==== Sys2Proof/Machine/Operands.lean ====
section
/-! DEFINITION. The byte order of multi-byte values (00_scope.md section 4, 20_memory.md R26, 40_crc.md R55): the
integers of args and of responses are little-endian, the CRC field is big-endian. -/

namespace Sys2Proof.Machine

/-- `le16(v)`: least significant byte first. -/
def le16 (v : Half) : List Byte := [v.extractLsb' 0 8, v.extractLsb' 8 8]

/-- `le32(v)`: least significant byte first. -/
def le32 (v : Word) : List Byte :=
  [v.extractLsb' 0 8, v.extractLsb' 8 8, v.extractLsb' 16 8, v.extractLsb' 24 8]

/-- `be16(v)`: most significant byte first. -/
def be16 (v : Half) : List Byte := [v.extractLsb' 8 8, v.extractLsb' 0 8]

/-- `(hi << 8) | lo`: the value of two bytes read big-endian (41_decoder.md R63, R64). -/
def be16Value (hi lo : Byte) : Half := (hi.setWidth 16 <<< 8) ||| lo.setWidth 16

/-- Entry `i` of a byte sequence. Every rule reads entries that exist; the value past the end is never reached
(log entry 6). -/
def byteAt (q : List Byte) (i : Nat) : Byte := q.getD i 0

/-- The 32-bit value of a quantity of the register view: the quantity itself, bits above it zero, where it fits
(10_state.md R21); free where it does not (log entry 5). -/
def word32 (n : Nat) : Word := if n < 2 ^ 32 then BitVec.ofNat 32 n else Config.registerOverflow n

end Sys2Proof.Machine
end

