-- ==== Sys2Proof/Machine/Flags.lean ====
section
/-! DEFINITION. The block has no condition flags: a command's outcome is reported by its status code (10_state.md
R19). The codes of 60_exceptions.md R102, the priority of R103 and the byte form of a response of R100. -/

namespace Sys2Proof.Machine

/-- The code of each status (60_exceptions.md R102). -/
def statusCode : Status → Byte
  | .ok => 0x00
  | .badOp => 0x01
  | .rsvd => 0x02
  | .badReg => 0x03
  | .rxFull => 0x04
  | .fqEmpty => 0x05
  | .stgFull => 0x06
  | .badLength => 0x07
  | .txFull => 0x08
  | .txEmpty => 0x09

/-- The place of each refusal in the order of 60_exceptions.md R103: of several that apply, the least is reported. E_OK
comes after all of them; the capacity statuses share one place, since no command can meet two. -/
def statusPriority : Status → Nat
  | .badOp => 0
  | .rsvd => 1
  | .badReg => 2
  | .badLength => 3
  | .rxFull | .fqEmpty | .stgFull | .txFull | .txEmpty => 4
  | .ok => 5

/-- Response data carried as bytes (60_exceptions.md R100). -/
def dataBytes : RespData → List Byte
  | .none => []
  | .byte b => [b]
  | .half h => le16 h
  | .word w => le32 w
  | .frame f => f

/-- A response carried as bytes: the status byte first (60_exceptions.md R100). -/
def responseBytes (r : Response) : List Byte := statusCode r.status :: dataBytes r.data

end Sys2Proof.Machine
end

