-- ==== Sys2Proof/Machine/Crc.lean ====
section
/-! DEFINITION. The CRC function (40_crc.md section 1), a pure function used by the CRC unit, the decoder and the
encoder (40_crc.md R56). -/

namespace Sys2Proof.Machine

/-- One CRC step, the source's bit-level algorithm (40_crc.md R53). -/
def crcStep (c : Half) (x : Byte) : Half :=
  let b := x.setWidth 16 ^^^ (c &&& 0x00FF)
  let b := b ^^^ ((b &&& 0x000F) <<< 4)
  ((b <<< 8) ||| (c >>> 8)) ^^^ (b >>> 4) ^^^ (b <<< 3)

/-- The CRC of a byte sequence: the left fold of `crcStep` from CRC_INIT (40_crc.md R54). -/
def crc16 (q : List Byte) : Half := q.foldl crcStep Config.crcInit

end Sys2Proof.Machine
end

