-- ==== Sys2Proof/Machine/FrameDecoder.lean ====
section
/-! DEFINITION. The frame decoder (41_decoder.md sections 1 to 3): valid frames, one decoder step with its eight
outcomes, and the run to quiescence that ends every performed command. -/

namespace Sys2Proof.Machine

/-- The frame validity predicate (41_decoder.md R63), with `L` the length byte. -/
abbrev ValidFrame (f : List Byte) : Prop :=
  1 ≤ f.length ∧ (byteAt f 0).toNat = f.length ∧
  Config.messageMin ≤ f.length ∧ f.length ≤ Config.messageMax ∧
  byteAt f 0 ≠ Config.sync ∧
  byteAt f (f.length - 1) = Config.sync ∧
  crc16 (f.take (f.length - Config.trailer)) = be16Value (byteAt f (f.length - 3)) (byteAt f (f.length - 2))

/-- The outcomes of a decoder step (41_decoder.md R64). -/
inductive DecOutcome where
  /-- fewer than MESSAGE_MIN bytes are buffered -/
  | quiescentShort
  /-- R65: the head is a sync separator -/
  | dropSync
  /-- R66: the head is no length -/
  | dropBadLen
  /-- R67: the candidate is not all there -/
  | wait
  /-- R68: the candidate does not end in SYNC -/
  | dropNoSync
  /-- R69: the candidate's CRC is wrong -/
  | dropCrc
  /-- R70: the candidate is a valid frame and FQ is full -/
  | hold
  /-- R71: the candidate is a valid frame and FQ has room -/
  | emit
  deriving DecidableEq, Repr

/-- One decoder step: the tests in the order of 41_decoder.md R64, with `L` the head byte read as a length. -/
def decStep (p : Params) (k : Block) : DecOutcome :=
  let buf := k.rxBuf
  let n := buf.length
  let len := (byteAt buf 0).toNat
  if n < Config.messageMin then .quiescentShort
  else if byteAt buf 0 = Config.sync then .dropSync
  else if len < Config.messageMin ∨ Config.messageMax < len then .dropBadLen
  else if n < len then .wait
  else if byteAt buf (len - 1) ≠ Config.sync then .dropNoSync
  else if crc16 (buf.take (len - Config.trailer)) ≠ be16Value (byteAt buf (len - 3)) (byteAt buf (len - 2)) then
    .dropCrc
  else if k.fq.length = p.fqDepth then .hold
  else .emit

/-- The outcomes that enable a step, all but QUIESCENT_SHORT, WAIT and HOLD (41_decoder.md R72). -/
def stepEnabled : DecOutcome → Bool
  | .quiescentShort | .wait | .hold => false
  | .dropSync | .dropBadLen | .dropNoSync | .dropCrc | .emit => true

/-- Drops one byte at the head of RXBUF. -/
def dropHead (k : Block) : Block := { k with rxBuf := k.rxBuf.drop 1 }

/-- The effect of each outcome (41_decoder.md R65 to R71). -/
def applyOutcome (o : DecOutcome) (k : Block) : Block :=
  match o with
  | .quiescentShort => k
  | .dropSync => dropHead k
  | .dropBadLen => dropHead k
  | .wait => k
  | .dropNoSync => dropHead k
  | .dropCrc => { dropHead k with crcErrCnt := k.crcErrCnt + 1 }
  | .hold => k
  | .emit =>
    { k with
      fq := k.fq ++ [k.rxBuf.take (byteAt k.rxBuf 0).toNat]
      rxBuf := k.rxBuf.drop (byteAt k.rxBuf 0).toNat }

/-- At most `fuel` enabled decoder steps. -/
def decRunFor : Nat → Params → Block → Block
  | 0, _, k => k
  | fuel + 1, p, k =>
    if stepEnabled (decStep p k) then decRunFor fuel p (applyOutcome (decStep p k) k) else k

/-- `dec_run`: decoder steps until the decoder is quiescent. It needs at most `len(RXBUF)` steps, since every enabled
step shortens RXBUF (41_decoder.md R73; log entry 7). -/
def decRun (p : Params) (k : Block) : Block := decRunFor k.rxBuf.length p k

/-- The decoder is quiescent: no step is enabled (41_decoder.md R72). -/
abbrev Quiescent (p : Params) (k : Block) : Prop := stepEnabled (decStep p k) = false

end Sys2Proof.Machine
end

