-- ==== Sys2Proof/Machine/Ops.lean ====
section
/-! DEFINITION. The operations every command goes through: responding, refusing (`raise`, which on this block takes
the place of an exception), and the performance of one command from its own rule to the end of the transition
(30_encoding.md R37, 60_exceptions.md R100, R101). -/

namespace Sys2Proof.Machine

/-- What a command's own rule gives: a refusal with a status, or the block after it and the response data. -/
abbrev Performed := Except Status (Block × RespData)

/-- `respond(E_OK, d)` in the block state `k` (60_exceptions.md R100). -/
def respond (k : Block) (d : RespData) : Performed := .ok (k, d)

/-- `raise E_x`: the command ends with that status, data none and no state change (60_exceptions.md R101). -/
def raise (e : Status) : Performed := .error e

/-- The end of a transition: the block becomes `k`, the executed word leaves the port and its response is given
(20_memory.md R29, R30; log entries 1, 2). -/
def answer (s : State) (k : Block) (r : Response) : State :=
  { s with block := k, port := s.port.tail, responses := s.responses ++ [r] }

/-- The end of a refused command: the block is as it was and the decoder does not run (60_exceptions.md R101). -/
def refuseWith (s : State) (e : Status) : State := answer s s.block { status := e, data := .none }

/-- The end of a performed command: the decoder runs to quiescence (30_encoding.md R37, 41_decoder.md R73). -/
def completeWith (s : State) (k : Block) (d : RespData) : State :=
  answer s (decRun s.params k) { status := .ok, data := d }

/-- The transition of one command whose own rule is `rule` (30_encoding.md R37). -/
def perform (rule : Params → Block → Performed) (s : State) : Host.Outcome State Fault Refusal :=
  match rule s.params s.block with
  | .error e => .next (refuseWith s e)
  | .ok (k, d) => .next (completeWith s k d)

/-- The status of a word that is no command (30_encoding.md R40, R41). -/
def decodeStatus : DecodeError → Status
  | .badOp => .badOp
  | .rsvd => .rsvd

end Sys2Proof.Machine
end

