-- ==== Sys2Proof/Machine/CrcUnit.lean ====
section
/-! DEFINITION. The standalone CRC unit (40_crc.md section 2): CRC_INIT, CRC_BYTE, CRC_READ. -/

namespace Sys2Proof.Machine

/-- CRC_INIT (40_crc.md R59). -/
def crcInitRule (_p : Params) (k : Block) : Performed := respond { k with crcAcc := Config.crcInit } .none

/-- CRC_BYTE b (40_crc.md R60). -/
def crcByteRule (b : Byte) (_p : Params) (k : Block) : Performed :=
  respond { k with crcAcc := crcStep k.crcAcc b } .none

/-- CRC_READ (40_crc.md R61). -/
def crcReadRule (_p : Params) (k : Block) : Performed := respond k (.half k.crcAcc)

/-- CRC_INIT. -/
def execCrcInit (s : State) : Host.Outcome State Fault Refusal := perform crcInitRule s

/-- CRC_BYTE b. -/
def execCrcByte (b : Byte) (s : State) : Host.Outcome State Fault Refusal := perform (crcByteRule b) s

/-- CRC_READ. -/
def execCrcRead (s : State) : Host.Outcome State Fault Refusal := perform crcReadRule s

end Sys2Proof.Machine
end

