-- ==== Sys2Proof/Machine/Wire.lean ====
section
/-! DEFINITION. The wire format (30_encoding.md Part B): a frame built of a body (42_encoder.md section 1), and the
six messages with their command ids and args (30_encoding.md R45 to R52). -/

namespace Sys2Proof.Machine

/-- The length of the frame of a body (42_encoder.md R83). -/
def frameLength (body : List Byte) : Nat := body.length + Config.trailer + 1

/-- The frame of a body (42_encoder.md R83): length, body, CRC over both (big-endian), SYNC. -/
def buildFrame (body : List Byte) : List Byte :=
  let pre := BitVec.ofNat 8 (frameLength body) :: body
  pre ++ be16 (crc16 pre) ++ [Config.sync]

/-- A frame length the decoder can decode (42_encoder.md R84). -/
abbrev LengthOk (len : Nat) : Prop :=
  Config.messageMin ≤ len ∧ len ≤ Config.messageMax ∧ len ≠ Config.sync.toNat

/-- The messages of the link, both directions (30_encoding.md R45). -/
inductive Message where
  /-- host to peripheral -/
  | displayText (text : List Byte)
  /-- peripheral to host; the position is the signed 16-bit value of the bits (R47; log entry 12) -/
  | knobEvent (position : Half)
  /-- peripheral to host; 0 released, 1 pressed (R48) -/
  | buttonEvent (state : Byte)
  /-- host to peripheral (R49) -/
  | buzzerPlay (cancelPrevious : Bool)
  /-- host to peripheral (R50) -/
  | buzzerToneQueue (cycleCount : Word) (halfPeriod : Half)
  /-- peripheral to host; the meaning of the status is not given (R51) -/
  | buzzerEvent (status : Byte)
  deriving DecidableEq, Repr

/-- The command id of a message (30_encoding.md R45). -/
def commandId : Message → Byte
  | .displayText _ => Config.cmdDisplayText
  | .knobEvent _ => Config.cmdKnobEvent
  | .buttonEvent _ => Config.cmdButtonEvent
  | .buzzerPlay _ => Config.cmdBuzzerPlay
  | .buzzerToneQueue _ _ => Config.cmdBuzzerToneQueue
  | .buzzerEvent _ => Config.cmdBuzzerEvent

/-- The args of a message (30_encoding.md R46 to R51). -/
def messageArgs : Message → List Byte
  | .displayText text => BitVec.ofNat 8 text.length :: text
  | .knobEvent position => le16 position
  | .buttonEvent state => [state]
  | .buzzerPlay cancelPrevious => [if cancelPrevious then 1 else 0]
  | .buzzerToneQueue cycleCount halfPeriod =>
    Config.toneMarker :: (le32 cycleCount ++ le16 halfPeriod ++ le16 halfPeriod)
  | .buzzerEvent status => [status]

/-- The body of a message: command id, then args (00_scope.md section 5; 90_conflicts.md C2). -/
def messageBody (m : Message) : List Byte := commandId m :: messageArgs m

/-- The signed position a KnobEvent carries, in two's complement (30_encoding.md R47; PRESUMED, log entry 12). -/
def knobPosition (position : Half) : Int := position.toInt

end Sys2Proof.Machine
end

