-- ==== Sys2Proof/Machine/Encoder.lean ====
section
/-! DEFINITION. The encoder (42_encoder.md sections 1 to 3): the whole-frame append, the staging commands and the
five encoder commands. -/

namespace Sys2Proof.Machine

/-- `tx_append`, then `respond(E_OK, none)` with the staging buffer left as `stg`: the bytes enter TXQ as a whole or the
command raises E_TXFULL (42_encoder.md R85; `TX_CAP - len(TXQ) < len(q)` is an integer comparison). -/
def txAppend (p : Params) (k : Block) (q : List Byte) (stg : List Byte) : Performed :=
  if p.txCap < k.txq.length + q.length then raise .txFull
  else respond { k with txq := k.txq ++ q, stg := stg } .none

/-- STG_PUT b (42_encoder.md R86). -/
def stgPutRule (b : Byte) (_p : Params) (k : Block) : Performed :=
  if k.stg.length = Config.stgCap then raise .stgFull
  else respond { k with stg := k.stg ++ [b] } .none

/-- STG_CLEAR (42_encoder.md R87). -/
def stgClearRule (_p : Params) (k : Block) : Performed := respond { k with stg := [] } .none

/-- ENC_SEND (42_encoder.md R88): STG is the body; it is kept on a refusal and emptied on success. -/
def encSendRule (p : Params) (k : Block) : Performed :=
  if LengthOk (frameLength k.stg) then txAppend p k (buildFrame k.stg) [] else raise .badLength

/-- ENC_DISPLAY_TEXT (42_encoder.md R89): STG is the text; it is kept on a refusal and emptied on success. -/
def encDisplayTextRule (p : Params) (k : Block) : Performed :=
  let body := messageBody (.displayText k.stg)
  if LengthOk (frameLength body) then txAppend p k (buildFrame body) [] else raise .badLength

/-- ENC_BUZZER_PLAY c (42_encoder.md R90): A above 1 raises E_RSVD, which the decoding of a command word has already
done (30_encoding.md R40; log entry 8). -/
def encBuzzerPlayRule (c : Byte) (p : Params) (k : Block) : Performed :=
  if c ≤ 1 then txAppend p k (buildFrame (messageBody (.buzzerPlay (c = 1)))) k.stg else raise .rsvd

/-- ENC_BUZZER_QUEUE cycles, half (42_encoder.md R91). -/
def encBuzzerQueueRule (cycles : Word) (half : Half) (p : Params) (k : Block) : Performed :=
  txAppend p k (buildFrame (messageBody (.buzzerToneQueue cycles half))) k.stg

/-- ENC_BEEP cycles, half (42_encoder.md R92): both frames in one append. -/
def encBeepRule (cycles : Word) (half : Half) (p : Params) (k : Block) : Performed :=
  txAppend p k
    (buildFrame (messageBody (.buzzerToneQueue cycles half)) ++ buildFrame (messageBody (.buzzerPlay true))) k.stg

/-- STG_PUT b. -/
def execStgPut (b : Byte) (s : State) : Host.Outcome State Fault Refusal := perform (stgPutRule b) s

/-- STG_CLEAR. -/
def execStgClear (s : State) : Host.Outcome State Fault Refusal := perform stgClearRule s

/-- ENC_SEND. -/
def execEncSend (s : State) : Host.Outcome State Fault Refusal := perform encSendRule s

/-- ENC_DISPLAY_TEXT. -/
def execEncDisplayText (s : State) : Host.Outcome State Fault Refusal := perform encDisplayTextRule s

/-- ENC_BUZZER_PLAY c. -/
def execEncBuzzerPlay (c : Byte) (s : State) : Host.Outcome State Fault Refusal := perform (encBuzzerPlayRule c) s

/-- ENC_BUZZER_QUEUE cycles, half. -/
def execEncBuzzerQueue (cycles : Word) (half : Half) (s : State) : Host.Outcome State Fault Refusal :=
  perform (encBuzzerQueueRule cycles half) s

/-- ENC_BEEP cycles, half. -/
def execEncBeep (cycles : Word) (half : Half) (s : State) : Host.Outcome State Fault Refusal :=
  perform (encBeepRule cycles half) s

end Sys2Proof.Machine
end

