-- ==== Sys2Proof/Machine/RxPort.lean ====
section
/-! DEFINITION. The decoder's two commands (41_decoder.md section 4): RX_PUSH and RX_POP. The decoder's run that
follows each is `perform`'s. -/

namespace Sys2Proof.Machine

/-- RX_PUSH b (41_decoder.md R74). -/
def rxPushRule (b : Byte) (p : Params) (k : Block) : Performed :=
  if k.rxBuf.length = p.bufCap then raise .rxFull
  else respond { k with rxBuf := k.rxBuf ++ [b] } .none

/-- RX_POP (41_decoder.md R75). -/
def rxPopRule (_p : Params) (k : Block) : Performed :=
  match k.fq with
  | [] => raise .fqEmpty
  | f :: rest => respond { k with fq := rest } (.frame f)

/-- RX_PUSH b. -/
def execRxPush (b : Byte) (s : State) : Host.Outcome State Fault Refusal := perform (rxPushRule b) s

/-- RX_POP. -/
def execRxPop (s : State) : Host.Outcome State Fault Refusal := perform rxPopRule s

end Sys2Proof.Machine
end

