-- ==== Sys2Proof/Machine/System.lean ====
section
/-! DEFINITION. The control commands (43_control.md): NOP, SOFT_RESET, REG_READ. -/

namespace Sys2Proof.Machine

/-- NOP (43_control.md R97). -/
def nopRule (_p : Params) (k : Block) : Performed := respond k .none

/-- SOFT_RESET (43_control.md R98): every element to its reset value. -/
def softResetRule (_p : Params) (_k : Block) : Performed := respond Block.reset .none

/-- HEAD_LEN: the length byte of the head frame of FQ, 0 while FQ is empty (10_state.md R21). -/
def headLength (k : Block) : Byte :=
  match k.fq with
  | [] => 0
  | f :: _ => byteAt f 0

/-- The register view (10_state.md R21); none for an index that is no register. -/
def registerView (p : Params) (k : Block) (idx : Byte) : Option Word :=
  match idx.toNat with
  | 0 => some (word32 k.rxBuf.length)
  | 1 => some (word32 k.fq.length)
  | 2 => some ((headLength k).setWidth 32)
  | 3 => some (word32 k.txq.length)
  | 4 => some (word32 k.stg.length)
  | 5 => some k.crcErrCnt
  | 6 => some (word32 p.bufCap)
  | 7 => some (word32 p.fqDepth)
  | 8 => some (word32 p.txCap)
  | _ => none

/-- REG_READ idx (43_control.md R99). -/
def regReadRule (idx : Byte) (p : Params) (k : Block) : Performed :=
  match registerView p k idx with
  | none => raise .badReg
  | some w => respond k (.word w)

/-- NOP. -/
def execNop (s : State) : Host.Outcome State Fault Refusal := perform nopRule s

/-- SOFT_RESET. -/
def execSoftReset (s : State) : Host.Outcome State Fault Refusal := perform softResetRule s

/-- REG_READ idx. -/
def execRegRead (idx : Byte) (s : State) : Host.Outcome State Fault Refusal := perform (regReadRule idx) s

end Sys2Proof.Machine
end

