-- ==== Sys2Proof/Machine/TxPort.lean ====
section
/-! DEFINITION. The transmit port (42_encoder.md section 4): TX_PULL. -/

namespace Sys2Proof.Machine

/-- TX_PULL (42_encoder.md R93). -/
def txPullRule (_p : Params) (k : Block) : Performed :=
  match k.txq with
  | [] => raise .txEmpty
  | b :: rest => respond { k with txq := rest } (.byte b)

/-- TX_PULL. -/
def execTxPull (s : State) : Host.Outcome State Fault Refusal := perform txPullRule s

end Sys2Proof.Machine
end

