-- ==== Sys2Proof/Machine/Dispatch.lean ====
section
/-! DEFINITION. The meaning of each command, one arm per constructor (`perform_op` of 30_encoding.md R37 and what
follows it). -/

namespace Sys2Proof.Machine

def exec (i : Instr) (s : State) : Host.Outcome State Fault Refusal :=
  match i with
  -- system
  | .nop => Sys2Proof.Machine.execNop s
  | .softReset => Sys2Proof.Machine.execSoftReset s
  | .regRead idx => Sys2Proof.Machine.execRegRead idx s
  -- CRC unit
  | .crcInit => Sys2Proof.Machine.execCrcInit s
  | .crcByte b => Sys2Proof.Machine.execCrcByte b s
  | .crcRead => Sys2Proof.Machine.execCrcRead s
  -- decoder
  | .rxPush b => Sys2Proof.Machine.execRxPush b s
  | .rxPop => Sys2Proof.Machine.execRxPop s
  -- encoder
  | .stgPut b => Sys2Proof.Machine.execStgPut b s
  | .stgClear => Sys2Proof.Machine.execStgClear s
  | .encSend => Sys2Proof.Machine.execEncSend s
  | .encDisplayText => Sys2Proof.Machine.execEncDisplayText s
  | .encBuzzerPlay c => Sys2Proof.Machine.execEncBuzzerPlay c s
  | .encBuzzerQueue cycles half => Sys2Proof.Machine.execEncBuzzerQueue cycles half s
  | .encBeep cycles half => Sys2Proof.Machine.execEncBeep cycles half s
  -- transmit port
  | .txPull => Sys2Proof.Machine.execTxPull s

end Sys2Proof.Machine
end

