-- ==== Sys2Proof/Machine/Step.lean ====
section
/-! DEFINITION. One transition of the machine (30_encoding.md R37): the next word of the command port is decoded and
performed, or refused with E_BADOP or E_RSVD. -/

namespace Sys2Proof.Machine

/-- The block takes the next word of the port. With no word there, the run is over and the state stays as it is
(70_reset_and_hazards.md R122; log entry 3). -/
def step (s : State) : Host.Outcome State Fault Refusal :=
  match s.port with
  | [] => .next s
  | cw :: _ =>
    match decode cw with
    | .error e => .next (refuseWith s (decodeStatus e))
    | .ok i => exec i s

/-- The word of the bits `w` of an opcode-table row arrives at the head of the port, so that the next step takes it
(20_memory.md R30, R35; log entry 1). -/
def State.withFetchWord (s : State) (nbits w : Nat) : State := { s with port := tableWord nbits w :: s.port }

end Sys2Proof.Machine
end

