-- ==== Sys2Proof/Machine/Asm.lean ====
section
/-! DEFINITION. The assembler syntax (30_encoding.md R42): the eight pseudo-instructions with their expansions, and
one line of text as the commands it stands for. A text that the syntax does not admit is refused (none). What R42 does
not state (blanks, letter case, escapes) is log entry 10. -/

namespace Sys2Proof.Machine

/-- The pseudo-instructions of 30_encoding.md R42. -/
inductive Pseudo where
  | rxPushs (bytes : List Byte)
  | rxPushN (b : Byte) (count : Nat)
  | txPullN (count : Nat)
  | stgPuts (bytes : List Byte)
  | crcBytes (bytes : List Byte)
  | crcOf (bytes : List Byte)
  | displayText (bytes : List Byte)
  | send (bytes : List Byte)
  deriving DecidableEq, Repr

/-- Each pseudo-instruction's expansion, in order (30_encoding.md R42). -/
def expandPseudo : Pseudo → List Instr
  | .rxPushs bytes => bytes.map .rxPush
  | .rxPushN b count => List.replicate count (.rxPush b)
  | .txPullN count => List.replicate count .txPull
  | .stgPuts bytes => bytes.map .stgPut
  | .crcBytes bytes => bytes.map .crcByte
  | .crcOf bytes => .crcInit :: (bytes.map .crcByte ++ [.crcRead])
  | .displayText bytes => .stgClear :: (bytes.map .stgPut ++ [.encDisplayText])
  | .send bytes => .stgClear :: (bytes.map .stgPut ++ [.encSend])

/-- An operand as written: an integer, or a string's ASCII bytes. -/
inductive AsmOperand where
  | number (n : Nat)
  | text (bytes : List Byte)
  deriving DecidableEq, Repr

/-- The value of a digit in base `base`, which is 10 or 16. -/
def digitValue (base : Nat) (c : Char) : Option Nat :=
  let v :=
    if '0' ≤ c ∧ c ≤ '9' then some (c.toNat - '0'.toNat)
    else if 'a' ≤ c ∧ c ≤ 'f' then some (c.toNat - 'a'.toNat + 10)
    else if 'A' ≤ c ∧ c ≤ 'F' then some (c.toNat - 'A'.toNat + 10)
    else none
  v.filter (· < base)

/-- The value of a digit string, none where it is empty or holds another character. -/
def digitsValue (base : Nat) : List Char → Option Nat
  | [] => none
  | cs => cs.foldlM (fun acc c => (digitValue base c).map (acc * base + ·)) 0

/-- A decimal or `0x` hexadecimal integer (30_encoding.md R42). -/
def parseNumber : List Char → Option Nat
  | '0' :: 'x' :: digits => digitsValue 16 digits
  | digits => digitsValue 10 digits

/-- The ASCII bytes of a string's characters. -/
def asciiBytes (cs : List Char) : Option (List Byte) :=
  cs.mapM fun c => if c.toNat < 128 then some (BitVec.ofNat 8 c.toNat) else none

/-- One operand: a string in double quotes, or an integer. DESIGN CHOICE (log entry 10): the first double quote after the
opening one ends the string, so none stands inside a string, and a text that goes on after it is refused. -/
def parseOperand : List Char → Option AsmOperand
  | '"' :: rest =>
    match rest.dropWhile (· ≠ '"') with
    | ['"'] => (asciiBytes (rest.takeWhile (· ≠ '"'))).map .text
    | _ => none
  | cs => (parseNumber cs).map .number

/-- A line without its comment: what stands before the first `;` outside a string. -/
def stripComment : Bool → List Char → List Char
  | _, [] => []
  | inString, c :: cs =>
    if c = ';' ∧ inString = false then []
    else c :: stripComment (if c = '"' then !inString else inString) cs

/-- Adds a character to the first of a list of pieces. -/
def consToFirst (c : Char) : List (List Char) → List (List Char)
  | [] => [[c]]
  | piece :: pieces => (c :: piece) :: pieces

/-- The pieces between the commas that stand outside strings. -/
def splitOperands : Bool → List Char → List (List Char)
  | _, [] => [[]]
  | inString, c :: cs =>
    if c = ',' ∧ inString = false then [] :: splitOperands inString cs
    else consToFirst c (splitOperands (if c = '"' then !inString else inString) cs)

/-- A blank: space, tab or carriage return. -/
def isBlank (c : Char) : Bool := c = ' ' || c = '\t' || c = '\r'

/-- A text without the blanks at its two ends. -/
def trimBlanks (cs : List Char) : List Char :=
  ((cs.dropWhile isBlank).reverse.dropWhile isBlank).reverse

/-- A line as its mnemonic and its operands; the mnemonic is empty on a line without a command. -/
def parseLine (line : List Char) : Option (List Char × List AsmOperand) :=
  let body := trimBlanks (stripComment false line)
  let mnemonic := body.takeWhile (!isBlank ·)
  let rest := trimBlanks (body.dropWhile (!isBlank ·))
  if rest = [] then some (mnemonic, [])
  else ((splitOperands false rest).mapM (parseOperand ∘ trimBlanks)).map (mnemonic, ·)

/-- An integer operand of a field of `width` bits. -/
def fieldOf (width n : Nat) : Option (BitVec width) :=
  if n < 2 ^ width then some (BitVec.ofNat width n) else none

/-- The byte list `b0, ..., bk`, or the string in its place. -/
def byteList : List AsmOperand → Option (List Byte)
  | [] => none
  | [.text bytes] => some bytes
  | ops => ops.mapM fun
    | .number n => fieldOf 8 n
    | .text _ => none

/-- The commands of a mnemonic with its operands (30_encoding.md R42). -/
def assembleCommand (mnemonic : List Char) (ops : List AsmOperand) : Option (List Instr) :=
  match String.ofList mnemonic, ops with
  | "", [] => some []
  | "NOP", [] => some [.nop]
  | "SOFT_RESET", [] => some [.softReset]
  | "REG_READ", [.number idx] => (fieldOf 8 idx).map ([.regRead ·])
  | "CRC_INIT", [] => some [.crcInit]
  | "CRC_BYTE", [.number b] => (fieldOf 8 b).map ([.crcByte ·])
  | "CRC_READ", [] => some [.crcRead]
  | "RX_PUSH", [.number b] => (fieldOf 8 b).map ([.rxPush ·])
  | "RX_POP", [] => some [.rxPop]
  | "STG_PUT", [.number b] => (fieldOf 8 b).map ([.stgPut ·])
  | "STG_CLEAR", [] => some [.stgClear]
  | "ENC_SEND", [] => some [.encSend]
  | "ENC_DISPLAY_TEXT", [] => some [.encDisplayText]
  | "ENC_BUZZER_PLAY", [.number c] => if c ≤ 1 then some [.encBuzzerPlay (BitVec.ofNat 8 c)] else none
  | "ENC_BUZZER_QUEUE", [.number cycles, .number half] => do
    return [.encBuzzerQueue (← fieldOf 32 cycles) (← fieldOf 16 half)]
  | "ENC_BEEP", [.number cycles, .number half] => do return [.encBeep (← fieldOf 32 cycles) (← fieldOf 16 half)]
  | "TX_PULL", [] => some [.txPull]
  | "RX_PUSHS", _ => (byteList ops).map (expandPseudo ∘ .rxPushs)
  | "RX_PUSHN", [.number b, .number count] => (fieldOf 8 b).map fun b => expandPseudo (.rxPushN b count)
  | "TX_PULLN", [.number count] => some (expandPseudo (.txPullN count))
  | "STG_PUTS", _ => (byteList ops).map (expandPseudo ∘ .stgPuts)
  | "CRC_BYTES", _ => (byteList ops).map (expandPseudo ∘ .crcBytes)
  | "CRC_OF", _ => (byteList ops).map (expandPseudo ∘ .crcOf)
  | "DISPLAY_TEXT", _ => (byteList ops).map (expandPseudo ∘ .displayText)
  | "SEND", _ => (byteList ops).map (expandPseudo ∘ .send)
  | _, _ => none

/-- The commands one line stands for, none where the line is not of the syntax. -/
def assembleLine (line : List Char) : Option (List Instr) := do
  let (mnemonic, ops) ← parseLine line
  assembleCommand mnemonic ops

/-- The commands a program of lines stands for, in order. -/
def assemble (lines : List (List Char)) : Option (List Instr) := (lines.mapM assembleLine).map List.flatten

end Sys2Proof.Machine
end

