-- ==== Sys2Proof/Machine/HostTone.lean ====
section
/-! DEFINITION. The host-side tone operands (42_encoder.md section 5), which the host computes OUTSIDE the block before
it issues ENC_BUZZER_QUEUE or ENC_BEEP. The block takes any operands (42_encoder.md R91); nothing of the machine uses
this file. -/

namespace Sys2Proof.Machine

/-- HOST_ARITH: the arithmetic of the host (92_eei_decisions.md D22), a parameter of the derivation: the number the host
holds for a rational, operand or result; none where it holds no finite number (log entry 11). -/
structure HostArith where
  /-- the number held -/
  round : ℚ → Option ℚ

/-- Exact rational arithmetic, for which the results of 42_encoder.md R94 are stated. -/
def exactArith : HostArith := { round := some }

/-- The nearest integer, a tie going to the even one. -/
def roundHalfEven (q : ℚ) : Int :=
  let low := q.floor
  if q - low < 1 / 2 then low
  else if 1 / 2 < q - low then low + 1
  else if low % 2 = 0 then low
  else low + 1

/-- `2 ^ e` for an integer `e`. -/
def powerOfTwo : Int → ℚ
  | .ofNat n => (2 ^ n : Nat)
  | .negSucc n => 1 / (2 ^ (n + 1) : Nat)

/-- The exponent of the leading bit of a `q` above 0. -/
def leadingExponent (q : ℚ) : Int :=
  let e := (Nat.log2 q.num.toNat : Int) - (Nat.log2 q.den : Int)
  if powerOfTwo e ≤ q then e else e - 1

/-- A rational rounded to IEEE binary64, to nearest, ties to even: 53 significant bits, fewer below 2^(-1022), so that
the smallest round to 0. None where the rounded value passes the largest finite number (PRESUMED, log entry 11). -/
def binary64 (q : ℚ) : Option ℚ :=
  if q = 0 then some 0
  else
    let ulp := powerOfTwo (max (leadingExponent |q|) (-1022) - 52)
    let rounded := roundHalfEven (q / ulp) * ulp
    if |rounded| < powerOfTwo 1024 then some rounded else none

/-- IEEE binary64 arithmetic, the other setting of HOST_ARITH (92_eei_decisions.md D22). -/
def binary64Arith : HostArith := { round := binary64 }

/-- Why a host refuses a tone (93_implementation_defined.md I4, I5; the names and `notFinite` are the model's, log
entry 11). -/
inductive ToneRefusal where
  /-- `freq_hz`, as given or as the host holds it, is not above 0 (I4). -/
  | frequencyNotPositive
  /-- an operand, the product or the quotient is no finite number of the host's arithmetic; such a product or quotient
  above 0 fits no field (I5). -/
  | notFinite
  /-- the cycle count exceeds a u32 (I5). -/
  | cyclesTooLarge
  /-- the half-period exceeds a u16 (I5). -/
  | halfPeriodTooLarge
  deriving DecidableEq, Repr

/-- The number the host holds for `q`, refused where it is not finite. -/
def heldByHost (arith : HostArith) (q : ℚ) : Except ToneRefusal ℚ :=
  match arith.round q with
  | some r => .ok r
  | none => .error .notFinite

/-- The operands of a product `freq_hz * duration_s` and a quotient `1000000 / freq_hz` (42_encoder.md R94), refused
where they do not fit their fields (93_implementation_defined.md I5). -/
def toneFields (product quotient : ℚ) : Except ToneRefusal (Word × Half) :=
  let cycles := (max 1 product.floor).toNat
  let half := quotient.floor.toNat / 2
  if 2 ^ 32 ≤ cycles then .error .cyclesTooLarge
  else if 2 ^ 16 ≤ half then .error .halfPeriodTooLarge
  else .ok (BitVec.ofNat 32 cycles, BitVec.ofNat 16 half)

/-- The operands `(cycles, half)` of a tone of `freq` Hz lasting `duration` seconds (42_encoder.md R94): the host rounds
its two operands, the product and the quotient. A frequency that the host holds as 0 is refused before the division. -/
def toneOperands (arith : HostArith) (freq duration : ℚ) : Except ToneRefusal (Word × Half) :=
  if freq ≤ 0 then .error .frequencyNotPositive
  else do
    let f ← heldByHost arith freq
    let d ← heldByHost arith duration
    if f ≤ 0 then .error .frequencyNotPositive
    else toneFields (← heldByHost arith (f * d)) (← heldByHost arith (1000000 / f))

/-- The source's `beep(freq, duration)`: the command the host issues (42_encoder.md R95). -/
def beepCommand (arith : HostArith) (freq duration : ℚ) : Except ToneRefusal Instr :=
  (toneOperands arith freq duration).map fun (cycles, half) => .encBeep cycles half

end Sys2Proof.Machine
end

