-- ==== Sys2Proof/Safety.lean ====
section
/-! DEFINITION. The terms in which claims speak of the machine: the state after a refused and after a performed command,
the invariants at command boundaries (10_state.md section 5), runs of commands and of command words (20_memory.md R30),
the causes of each status (60_exceptions.md R102), and the frames an encoder command is to build. -/

namespace Sys2Proof.Machine

/-- The state after a command that was refused with `e`: the word has left the port, the response is (e, none), and
nothing else has changed (60_exceptions.md R101). -/
def afterRefusal (s : State) (e : Status) : State :=
  { s with port := s.port.tail, responses := s.responses ++ [{ status := e, data := .none }] }

/-- The state after a command that was performed and left the block `k`: the word has left the port and the response is
(E_OK, d) (60_exceptions.md R100). -/
def afterCommand (s : State) (k : Block) (d : RespData) : State :=
  { s with block := k, port := s.port.tail, responses := s.responses ++ [{ status := .ok, data := d }] }

/-- The bounds of 10_state.md R12, the constraints on the parameters, R22 and the first clause of R24, as they hold at
every command boundary. -/
structure Invariant (s : State) : Prop where
  /-- 00_scope.md R6, R7, R8 -/
  params_ok : s.params.Ok
  /-- 10_state.md R14 -/
  rxBuf_bound : s.block.rxBuf.length ≤ s.params.bufCap
  /-- 10_state.md R15 -/
  fq_bound : s.block.fq.length ≤ s.params.fqDepth
  /-- 10_state.md R17 -/
  stg_bound : s.block.stg.length ≤ Config.stgCap
  /-- 10_state.md R18 -/
  txq_bound : s.block.txq.length ≤ s.params.txCap
  /-- 10_state.md R15, R24 -/
  fq_valid : ∀ f ∈ s.block.fq, ValidFrame f
  /-- 10_state.md R22 -/
  quiescent : Quiescent s.params s.block

/-- Commands performed one after another (20_memory.md R30), stopping at a fault or a refusal. -/
def runCommands : List Instr → State → Host.Outcome State Fault Refusal
  | [], s => .next s
  | i :: rest, s =>
    match exec i s with
    | .next t => runCommands rest t
    | .fault r => .fault r
    | .refused r => .refused r

/-- The bytes of a transfer pushed one per RX_PUSH, in order. -/
def pushAll (bytes : List Byte) : List Instr := bytes.map .rxPush

/-- The bytes that the RX_PUSH commands of a sequence push, in order. -/
def pushedBytes : List Instr → List Byte
  | [] => []
  | .rxPush b :: rest => b :: pushedBytes rest
  | _ :: rest => pushedBytes rest

/-- The bytes that the CRC_BYTE commands of a sequence feed, in order. -/
def fedBytes : List Instr → List Byte
  | [] => []
  | .crcByte b :: rest => b :: fedBytes rest
  | _ :: rest => fedBytes rest

/-- The effect of a command word on a block instantiated with `p` and its responses, as the transition `step(S, CW)` of
30_encoding.md R37 returns them: one step of a machine that has this one word on its port and has answered nothing. -/
def transition (p : Params) (k : Block) (cw : CmdWord) : Block × List Response :=
  match step { block := k, params := p, port := [cw], responses := [] } with
  | .next t => (t.block, t.responses)
  | _ => (k, [])

/-- The left fold of the transition over a sequence of command words (20_memory.md R30), with the responses in order
(70_reset_and_hazards.md R122). -/
def runWords (p : Params) : Block → List CmdWord → Block × List Response
  | k, [] => (k, [])
  | k, cw :: rest =>
    let first := transition p k cw
    let others := runWords p first.1 rest
    (others.1, first.2 ++ others.2)

/-- The opcodes of FCE command set 1 (30_encoding.md R39). -/
def assignedOpcodes : List Byte :=
  [0x00, 0x01, 0x02, 0x10, 0x11, 0x12, 0x20, 0x21, 0x30, 0x31, 0x32, 0x33, 0x34, 0x35, 0x36, 0x40]

/-- A word of an assigned opcode has a nonzero bit in a field its command does not use; for ENC_BUZZER_PLAY, A is above
1 (30_encoding.md R38, R40; the statuses of each command's rule). -/
abbrev ReservedFieldSet (cw : CmdWord) : Prop :=
  (opField cw ∈ ([0x00, 0x01, 0x10, 0x12, 0x21, 0x31, 0x32, 0x33, 0x40] : List Byte) ∧
    (aField cw ≠ 0 ∨ hField cw ≠ 0 ∨ wField cw ≠ 0)) ∨
  (opField cw ∈ ([0x02, 0x11, 0x20, 0x30] : List Byte) ∧ (hField cw ≠ 0 ∨ wField cw ≠ 0)) ∨
  (opField cw = 0x34 ∧ (1 < aField cw ∨ hField cw ≠ 0 ∨ wField cw ≠ 0)) ∨
  (opField cw ∈ ([0x35, 0x36] : List Byte) ∧ aField cw ≠ 0)

/-- A frame length outside [5, 128] or equal to 126 (60_exceptions.md R102, cause of E_LEN). -/
def BadFrameLength (len : Nat) : Prop := len < 5 ∨ 128 < len ∨ len = 126

/-- The cause of each status in the table of 60_exceptions.md R102, for a command word on a block; E_OK's is always
there and comes last in the order. -/
def StatusCause (p : Params) (k : Block) (cw : CmdWord) : Status → Prop
  | .badOp => opField cw ∉ assignedOpcodes
  | .rsvd => ReservedFieldSet cw
  | .badReg => opField cw = 0x02 ∧ 0x08 < aField cw
  | .rxFull => opField cw = 0x20 ∧ k.rxBuf.length = p.bufCap
  | .fqEmpty => opField cw = 0x21 ∧ k.fq = []
  | .stgFull => opField cw = 0x30 ∧ k.stg.length = 124
  | .badLength =>
    (opField cw = 0x32 ∧ BadFrameLength (k.stg.length + 4)) ∨ (opField cw = 0x33 ∧ BadFrameLength (k.stg.length + 6))
  | .txFull =>
    (opField cw = 0x32 ∧ p.txCap < k.txq.length + (k.stg.length + 4)) ∨
    (opField cw = 0x33 ∧ p.txCap < k.txq.length + (k.stg.length + 6)) ∨
    (opField cw = 0x34 ∧ p.txCap < k.txq.length + 6) ∨
    (opField cw = 0x35 ∧ p.txCap < k.txq.length + 14) ∨
    (opField cw = 0x36 ∧ p.txCap < k.txq.length + 20)
  | .txEmpty => opField cw = 0x40 ∧ k.txq = []
  | .ok => True

/-- The bodies of the frames an encoder command builds on a block, in order (42_encoder.md R88 to R92); none for every
other command. -/
def encodedBodies (k : Block) : Instr → List (List Byte)
  | .encSend => [k.stg]
  | .encDisplayText => [10 :: BitVec.ofNat 8 k.stg.length :: k.stg]
  | .encBuzzerPlay c => [[14, c]]
  | .encBuzzerQueue cycles half => [15 :: 8 :: (le32 cycles ++ le16 half ++ le16 half)]
  | .encBeep cycles half => [15 :: 8 :: (le32 cycles ++ le16 half ++ le16 half), [14, 1]]
  | .nop | .softReset | .regRead _ | .crcInit | .crcByte _ | .crcRead | .rxPush _ | .rxPop | .stgPut _ | .stgClear
  | .txPull => []

end Sys2Proof.Machine
end

