-- ==== Sys2Proof/Certificates/Slice0/Obligations.lean ====
section
/-! DEFINITION. The statements for the provers. Each docstring names the rule of spec/ it formalises. In the statements
about one command, a command that was performed leaves the decoder to run (30_encoding.md R37); the premise `Quiescent`
is the invariant 10_state.md R22, stated to hold at reset and to be kept by every step below. `afterRefusal` and
`afterCommand` (Safety.lean) name the whole next state, so each such equation is the command's frame as well. -/

open Sys2Proof Sys2Proof.Machine

/-! ## The sixteen commands -/

/-- 43_control.md R97. -/
def Obligations.NopAnswersOkAndChangesNothing : Prop :=
  (∀ (s : State) (cw : CmdWord) (rest : List CmdWord), s.port = cw :: rest → opField cw = 0x00 →
    ((aField cw = 0 ∧ hField cw = 0 ∧ wField cw = 0 → step s = exec .nop s) ∧
     (¬(aField cw = 0 ∧ hField cw = 0 ∧ wField cw = 0) → step s = .next (afterRefusal s .rsvd)))) ∧
  (∀ s : State, Quiescent s.params s.block → exec .nop s = .next (afterCommand s s.block .none))

/-- 43_control.md R98, 70_reset_and_hazards.md R112. -/
def Obligations.SoftResetRestoresEveryElement : Prop :=
  (∀ (s : State) (cw : CmdWord) (rest : List CmdWord), s.port = cw :: rest → opField cw = 0x01 →
    ((aField cw = 0 ∧ hField cw = 0 ∧ wField cw = 0 → step s = exec .softReset s) ∧
     (¬(aField cw = 0 ∧ hField cw = 0 ∧ wField cw = 0) → step s = .next (afterRefusal s .rsvd)))) ∧
  (∀ s : State, exec .softReset s =
    .next (afterCommand s { crcAcc := 0xFFFF, rxBuf := [], fq := [], crcErrCnt := 0, stg := [], txq := [] } .none)) ∧
  (∀ (s : State) (p : Params), exec .softReset s = .next (afterCommand s (State.resetWith p).block .none))

/-- 43_control.md R99 with the view of 10_state.md R21. The value of a quantity of 2^32 or more is free (log entry 5);
the command completes there too. -/
def Obligations.RegReadAnswersTheRegisterView : Prop :=
  (∀ (s : State) (cw : CmdWord) (rest : List CmdWord), s.port = cw :: rest → opField cw = 0x02 →
    ((hField cw = 0 ∧ wField cw = 0 → step s = exec (.regRead (aField cw)) s) ∧
     (¬(hField cw = 0 ∧ wField cw = 0) → step s = .next (afterRefusal s .rsvd)))) ∧
  (∀ (s : State) (idx : Byte) (n : Nat), Quiescent s.params s.block →
    (idx.toNat, n) ∈ [(0, s.block.rxBuf.length), (1, s.block.fq.length), (3, s.block.txq.length),
      (4, s.block.stg.length), (5, s.block.crcErrCnt.toNat), (6, s.params.bufCap), (7, s.params.fqDepth),
      (8, s.params.txCap)] →
    n < 2 ^ 32 → exec (.regRead idx) s = .next (afterCommand s s.block (.word (BitVec.ofNat 32 n)))) ∧
  (∀ s : State, Quiescent s.params s.block → s.block.fq = [] →
    exec (.regRead 2) s = .next (afterCommand s s.block (.word 0))) ∧
  (∀ (s : State) (len : Byte) (f : List Byte) (rest : List (List Byte)), Quiescent s.params s.block →
    s.block.fq = (len :: f) :: rest →
    exec (.regRead 2) s = .next (afterCommand s s.block (.word (BitVec.ofNat 32 len.toNat)))) ∧
  (∀ (s : State) (idx : Byte), Quiescent s.params s.block → idx ≤ 8 →
    ∃ w : Word, exec (.regRead idx) s = .next (afterCommand s s.block (.word w))) ∧
  (∀ (s : State) (idx : Byte), 8 < idx → exec (.regRead idx) s = .next (afterRefusal s .badReg)) ∧
  (∀ (p : Params) (idx : Byte), idx ≤ 5 →
    exec (.regRead idx) (State.resetWith p) =
      .next (afterCommand (State.resetWith p) (State.resetWith p).block (.word 0)))

/-- 40_crc.md R59. -/
def Obligations.CrcInitStartsTheAccumulator : Prop :=
  (∀ (s : State) (cw : CmdWord) (rest : List CmdWord), s.port = cw :: rest → opField cw = 0x10 →
    ((aField cw = 0 ∧ hField cw = 0 ∧ wField cw = 0 → step s = exec .crcInit s) ∧
     (¬(aField cw = 0 ∧ hField cw = 0 ∧ wField cw = 0) → step s = .next (afterRefusal s .rsvd)))) ∧
  (∀ s : State, Quiescent s.params s.block →
    exec .crcInit s = .next (afterCommand s { s.block with crcAcc := 0xFFFF } .none))

/-- 40_crc.md R60, with the step of R53 written out. -/
def Obligations.CrcByteFeedsTheAccumulator : Prop :=
  (∀ (s : State) (cw : CmdWord) (rest : List CmdWord), s.port = cw :: rest → opField cw = 0x11 →
    ((hField cw = 0 ∧ wField cw = 0 → step s = exec (.crcByte (aField cw)) s) ∧
     (¬(hField cw = 0 ∧ wField cw = 0) → step s = .next (afterRefusal s .rsvd)))) ∧
  (∀ (s : State) (b : Byte), Quiescent s.params s.block →
    exec (.crcByte b) s = .next (afterCommand s { s.block with crcAcc :=
      (let c := s.block.crcAcc
       let v : Half := b.setWidth 16 ^^^ (c &&& 0x00FF)
       let v := v ^^^ ((v &&& 0x000F) <<< 4)
       ((v <<< 8) ||| (c >>> 8)) ^^^ (v >>> 4) ^^^ (v <<< 3)) } .none))

/-- 40_crc.md R61. -/
def Obligations.CrcReadAnswersTheAccumulator : Prop :=
  (∀ (s : State) (cw : CmdWord) (rest : List CmdWord), s.port = cw :: rest → opField cw = 0x12 →
    ((aField cw = 0 ∧ hField cw = 0 ∧ wField cw = 0 → step s = exec .crcRead s) ∧
     (¬(aField cw = 0 ∧ hField cw = 0 ∧ wField cw = 0) → step s = .next (afterRefusal s .rsvd)))) ∧
  (∀ s : State, Quiescent s.params s.block →
    exec .crcRead s = .next (afterCommand s s.block (.half s.block.crcAcc)))

/-- 41_decoder.md R74. -/
def Obligations.RxPushAppendsThenDecodes : Prop :=
  (∀ (s : State) (cw : CmdWord) (rest : List CmdWord), s.port = cw :: rest → opField cw = 0x20 →
    ((hField cw = 0 ∧ wField cw = 0 → step s = exec (.rxPush (aField cw)) s) ∧
     (¬(hField cw = 0 ∧ wField cw = 0) → step s = .next (afterRefusal s .rsvd)))) ∧
  (∀ (s : State) (b : Byte), s.block.rxBuf.length ≠ s.params.bufCap →
    exec (.rxPush b) s =
      .next (afterCommand s (decRun s.params { s.block with rxBuf := s.block.rxBuf ++ [b] }) .none)) ∧
  (∀ (s : State) (b : Byte), s.block.rxBuf.length = s.params.bufCap →
    exec (.rxPush b) s = .next (afterRefusal s .rxFull)) ∧
  (∀ s : State, Invariant s → s.block.rxBuf.length = s.params.bufCap → s.block.fq.length = s.params.fqDepth) ∧
  (∀ (p : Params) (k : Block), (decRun p k).crcAcc = k.crcAcc ∧ (decRun p k).stg = k.stg ∧ (decRun p k).txq = k.txq)

/-- 41_decoder.md R75. -/
def Obligations.RxPopTakesTheOldestFrame : Prop :=
  (∀ (s : State) (cw : CmdWord) (rest : List CmdWord), s.port = cw :: rest → opField cw = 0x21 →
    ((aField cw = 0 ∧ hField cw = 0 ∧ wField cw = 0 → step s = exec .rxPop s) ∧
     (¬(aField cw = 0 ∧ hField cw = 0 ∧ wField cw = 0) → step s = .next (afterRefusal s .rsvd)))) ∧
  (∀ (s : State) (f : List Byte) (rest : List (List Byte)), s.block.fq = f :: rest →
    exec .rxPop s = .next (afterCommand s (decRun s.params { s.block with fq := rest }) (.frame f))) ∧
  (∀ (s : State) (f : List Byte) (rest : List (List Byte)), Invariant s → s.block.fq = f :: rest →
    (byteAt f 0).toNat = f.length ∧ 5 ≤ f.length ∧ f.length ≤ 128) ∧
  (∀ s : State, s.block.fq = [] → exec .rxPop s = .next (afterRefusal s .fqEmpty)) ∧
  (∀ (p : Params) (k : Block), (decRun p k).crcAcc = k.crcAcc ∧ (decRun p k).stg = k.stg ∧ (decRun p k).txq = k.txq)

/-- 42_encoder.md R86. -/
def Obligations.StgPutAppendsToStaging : Prop :=
  (∀ (s : State) (cw : CmdWord) (rest : List CmdWord), s.port = cw :: rest → opField cw = 0x30 →
    ((hField cw = 0 ∧ wField cw = 0 → step s = exec (.stgPut (aField cw)) s) ∧
     (¬(hField cw = 0 ∧ wField cw = 0) → step s = .next (afterRefusal s .rsvd)))) ∧
  (∀ (s : State) (b : Byte), Quiescent s.params s.block → s.block.stg.length ≠ 124 →
    exec (.stgPut b) s = .next (afterCommand s { s.block with stg := s.block.stg ++ [b] } .none)) ∧
  (∀ (s : State) (b : Byte), s.block.stg.length = 124 → exec (.stgPut b) s = .next (afterRefusal s .stgFull))

/-- 42_encoder.md R87. -/
def Obligations.StgClearEmptiesStaging : Prop :=
  (∀ (s : State) (cw : CmdWord) (rest : List CmdWord), s.port = cw :: rest → opField cw = 0x31 →
    ((aField cw = 0 ∧ hField cw = 0 ∧ wField cw = 0 → step s = exec .stgClear s) ∧
     (¬(aField cw = 0 ∧ hField cw = 0 ∧ wField cw = 0) → step s = .next (afterRefusal s .rsvd)))) ∧
  (∀ s : State, Quiescent s.params s.block →
    exec .stgClear s = .next (afterCommand s { s.block with stg := [] } .none))

/-- 42_encoder.md R88, with the checks of R84 and R85 written out. -/
def Obligations.EncSendTransmitsTheStagedBody : Prop :=
  (∀ (s : State) (cw : CmdWord) (rest : List CmdWord), s.port = cw :: rest → opField cw = 0x32 →
    ((aField cw = 0 ∧ hField cw = 0 ∧ wField cw = 0 → step s = exec .encSend s) ∧
     (¬(aField cw = 0 ∧ hField cw = 0 ∧ wField cw = 0) → step s = .next (afterRefusal s .rsvd)))) ∧
  (∀ s : State, Quiescent s.params s.block → 1 ≤ s.block.stg.length → s.block.stg.length ≤ 124 →
    s.block.stg.length ≠ 122 → s.block.txq.length + (s.block.stg.length + 4) ≤ s.params.txCap →
    exec .encSend s =
      .next (afterCommand s { s.block with txq := s.block.txq ++ buildFrame s.block.stg, stg := [] } .none)) ∧
  (∀ s : State, s.block.stg.length = 0 ∨ s.block.stg.length = 122 ∨ 124 < s.block.stg.length →
    exec .encSend s = .next (afterRefusal s .badLength)) ∧
  (∀ s : State, 1 ≤ s.block.stg.length → s.block.stg.length ≤ 124 → s.block.stg.length ≠ 122 →
    s.params.txCap < s.block.txq.length + (s.block.stg.length + 4) →
    exec .encSend s = .next (afterRefusal s .txFull))

/-- 42_encoder.md R89, with the checks of R84 and R85 written out. -/
def Obligations.EncDisplayTextTransmitsTheStagedText : Prop :=
  (∀ (s : State) (cw : CmdWord) (rest : List CmdWord), s.port = cw :: rest → opField cw = 0x33 →
    ((aField cw = 0 ∧ hField cw = 0 ∧ wField cw = 0 → step s = exec .encDisplayText s) ∧
     (¬(aField cw = 0 ∧ hField cw = 0 ∧ wField cw = 0) → step s = .next (afterRefusal s .rsvd)))) ∧
  (∀ s : State, Quiescent s.params s.block → s.block.stg.length ≤ 122 → s.block.stg.length ≠ 120 →
    s.block.txq.length + (s.block.stg.length + 6) ≤ s.params.txCap →
    exec .encDisplayText s =
      .next (afterCommand s { s.block with
        txq := s.block.txq ++ buildFrame (10 :: BitVec.ofNat 8 s.block.stg.length :: s.block.stg)
        stg := [] } .none)) ∧
  (∀ s : State, 122 < s.block.stg.length ∨ s.block.stg.length = 120 →
    exec .encDisplayText s = .next (afterRefusal s .badLength)) ∧
  (∀ s : State, s.block.stg.length ≤ 122 → s.block.stg.length ≠ 120 →
    s.params.txCap < s.block.txq.length + (s.block.stg.length + 6) →
    exec .encDisplayText s = .next (afterRefusal s .txFull))

/-- 42_encoder.md R90. -/
def Obligations.EncBuzzerPlayTransmitsItsFrame : Prop :=
  (∀ (s : State) (cw : CmdWord) (rest : List CmdWord), s.port = cw :: rest → opField cw = 0x34 →
    ((aField cw ≤ 1 ∧ hField cw = 0 ∧ wField cw = 0 → step s = exec (.encBuzzerPlay (aField cw)) s) ∧
     (¬(aField cw ≤ 1 ∧ hField cw = 0 ∧ wField cw = 0) → step s = .next (afterRefusal s .rsvd)))) ∧
  (∀ (s : State) (c : Byte), Quiescent s.params s.block → c ≤ 1 → s.block.txq.length + 6 ≤ s.params.txCap →
    exec (.encBuzzerPlay c) s =
      .next (afterCommand s { s.block with txq := s.block.txq ++ buildFrame [14, c] } .none)) ∧
  (∀ (s : State) (c : Byte), c ≤ 1 → s.params.txCap < s.block.txq.length + 6 →
    exec (.encBuzzerPlay c) s = .next (afterRefusal s .txFull)) ∧
  (∀ (s : State) (c : Byte), 1 < c → exec (.encBuzzerPlay c) s = .next (afterRefusal s .rsvd))

/-- 42_encoder.md R91, the args' bytes written out. -/
def Obligations.EncBuzzerQueueTransmitsItsFrame : Prop :=
  (∀ (s : State) (cw : CmdWord) (rest : List CmdWord), s.port = cw :: rest → opField cw = 0x35 →
    ((aField cw = 0 → step s = exec (.encBuzzerQueue (wField cw) (hField cw)) s) ∧
     (aField cw ≠ 0 → step s = .next (afterRefusal s .rsvd)))) ∧
  (∀ (s : State) (w3 w2 w1 w0 h1 h0 : Byte), Quiescent s.params s.block →
    s.block.txq.length + 14 ≤ s.params.txCap →
    exec (.encBuzzerQueue (w3 ++ w2 ++ w1 ++ w0) (h1 ++ h0)) s =
      .next (afterCommand s { s.block with
        txq := s.block.txq ++ buildFrame [15, 8, w0, w1, w2, w3, h0, h1, h0, h1] } .none)) ∧
  (∀ (s : State) (cycles : Word) (half : Half), s.params.txCap < s.block.txq.length + 14 →
    exec (.encBuzzerQueue cycles half) s = .next (afterRefusal s .txFull))

/-- 42_encoder.md R92, the args' bytes written out. -/
def Obligations.EncBeepTransmitsBothFrames : Prop :=
  (∀ (s : State) (cw : CmdWord) (rest : List CmdWord), s.port = cw :: rest → opField cw = 0x36 →
    ((aField cw = 0 → step s = exec (.encBeep (wField cw) (hField cw)) s) ∧
     (aField cw ≠ 0 → step s = .next (afterRefusal s .rsvd)))) ∧
  (∀ (s : State) (w3 w2 w1 w0 h1 h0 : Byte), Quiescent s.params s.block →
    s.block.txq.length + 20 ≤ s.params.txCap →
    exec (.encBeep (w3 ++ w2 ++ w1 ++ w0) (h1 ++ h0)) s =
      .next (afterCommand s { s.block with
        txq := s.block.txq ++ (buildFrame [15, 8, w0, w1, w2, w3, h0, h1, h0, h1] ++ buildFrame [14, 1]) } .none)) ∧
  (∀ (s : State) (cycles : Word) (half : Half), s.params.txCap < s.block.txq.length + 20 →
    exec (.encBeep cycles half) s = .next (afterRefusal s .txFull))

/-- 42_encoder.md R93. -/
def Obligations.TxPullTakesTheNextByte : Prop :=
  (∀ (s : State) (cw : CmdWord) (rest : List CmdWord), s.port = cw :: rest → opField cw = 0x40 →
    ((aField cw = 0 ∧ hField cw = 0 ∧ wField cw = 0 → step s = exec .txPull s) ∧
     (¬(aField cw = 0 ∧ hField cw = 0 ∧ wField cw = 0) → step s = .next (afterRefusal s .rsvd)))) ∧
  (∀ (s : State) (b : Byte) (rest : List Byte), Quiescent s.params s.block → s.block.txq = b :: rest →
    exec .txPull s = .next (afterCommand s { s.block with txq := rest } (.byte b))) ∧
  (∀ s : State, s.block.txq = [] → exec .txPull s = .next (afterRefusal s .txEmpty))

/-! ## The machine -/

/-- 30_encoding.md R37 for a word that decodes: the step performs the decoded command. What the step adds around the
command's own effect is part of `exec`: the word leaves the port and one response is given. -/
def Obligations.StepRunsTheDecodedCommand : Prop :=
  ∀ (s : State) (cw : CmdWord) (rest : List CmdWord) (i : Instr), s.port = cw :: rest → decode cw = .ok i →
    step s = exec i s ∧
    ∃ (t : State) (r : Response), step s = .next t ∧ t.port = rest ∧ t.responses = s.responses ++ [r]

/-- The model's choice (log entry 3): with no word on the port the state stays as it is. -/
def Obligations.StepOnAnEmptyPortIsIdle : Prop :=
  ∀ s : State, s.port = [] → step s = .next s

/-- 70_reset_and_hazards.md R122: every command word, in every state, has exactly one next state and one response; a run
of any words ends after the last of them, with one response per command, in order. -/
def Obligations.EveryWordHasOneNextStateAndOneResponse : Prop :=
  (∀ (s : State) (cw : CmdWord) (rest : List CmdWord), s.port = cw :: rest →
    ∃ (t : State) (r : Response), step s = .next t ∧ t.port = rest ∧ t.params = s.params ∧
      t.responses = s.responses ++ [r]) ∧
  (∀ s : State, ∃ (t : State) (rs : List Response), Host.Core.run core s.port.length s = .next t ∧ t.port = [] ∧
    t.responses = s.responses ++ rs ∧ rs.length = s.port.length)

/-- 30_encoding.md R41, the unassigned ranges as the rule lists them. -/
def Obligations.UnassignedOpcodeAnswersBadOp : Prop :=
  ∀ (s : State) (cw : CmdWord) (rest : List CmdWord), s.port = cw :: rest →
    ((0x03 ≤ opField cw ∧ opField cw ≤ 0x0F) ∨ (0x13 ≤ opField cw ∧ opField cw ≤ 0x1F) ∨
     (0x22 ≤ opField cw ∧ opField cw ≤ 0x2F) ∨ (0x37 ≤ opField cw ∧ opField cw ≤ 0x3F) ∨ 0x41 ≤ opField cw) →
    step s = .next (afterRefusal s .badOp)

/-- 30_encoding.md R40, the reserved fields as each command's rule names them. -/
def Obligations.ReservedFieldAnswersRsvd : Prop :=
  (∀ (s : State) (cw : CmdWord) (rest : List CmdWord), s.port = cw :: rest → ReservedFieldSet cw →
    step s = .next (afterRefusal s .rsvd)) ∧
  (∀ (cw : CmdWord), opField cw ∈ assignedOpcodes → ¬ReservedFieldSet cw → ∃ i, decode cw = .ok i)

/-- 60_exceptions.md R103 over the causes of R102: the status of a response has its cause, and every other status whose
cause holds comes later in the order; no command meets two statuses of one place. -/
def Obligations.ReportedStatusIsTheFirstThatApplies : Prop :=
  ∀ (s t : State) (cw : CmdWord) (rest : List CmdWord) (r : Response), s.port = cw :: rest → step s = .next t →
    t.responses = s.responses ++ [r] →
    StatusCause s.params s.block cw r.status ∧
    (∀ e : Status, StatusCause s.params s.block cw e →
      e = r.status ∨ statusPriority r.status < statusPriority e) ∧
    (∀ e e' : Status, StatusCause s.params s.block cw e → StatusCause s.params s.block cw e' →
      statusPriority e = statusPriority e' → e = e')

/-- 60_exceptions.md R101, and the data of a refusal by R100. -/
def Obligations.RefusedWordChangesNoElement : Prop :=
  ∀ (s t : State) (cw : CmdWord) (rest : List CmdWord) (r : Response), s.port = cw :: rest → step s = .next t →
    t.responses = s.responses ++ [r] →
    (r.status ≠ .ok → r.data = .none ∧ t.block = s.block) ∧ (r.status = .ok → Quiescent t.params t.block)

/-- 20_memory.md R30 with the responses of 70_reset_and_hazards.md R122: running the machine over the words on its port
is the left fold of the transition, whatever stands behind them on the port and has been answered before. -/
def Obligations.RunIsTheFoldOfItsWords : Prop :=
  ∀ (s : State) (ws rest : List CmdWord), s.port = ws ++ rest →
    Host.Core.run core ws.length s =
      .next { s with
        block := (runWords s.params s.block ws).1
        port := rest
        responses := s.responses ++ (runWords s.params s.block ws).2 } ∧
    (runWords s.params s.block ws).2.length = ws.length

/-- Decoding an encoded command gives it back, from a word and from bytes; an ill-formed ENC_BUZZER_PLAY encodes to a
word with a reserved bit set (30_encoding.md R38 to R40, 20_memory.md R27). -/
def Obligations.DecodeOfEncodedCommand : Prop :=
  ∀ i : Instr,
    (wellFormed i = true → decode (encode i) = .ok i ∧
      ∀ rest : List Byte, decodeBytes (encodeBytes i ++ rest) = some (.ok i, rest)) ∧
    (wellFormed i = false → decode (encode i) = .error .rsvd)

/-- Each word has one meaning: a word that decodes is the encoding of what it decodes to (30_encoding.md R38 to R41). -/
def Obligations.EncodeOfDecodedWord : Prop :=
  ∀ (cw : CmdWord) (i : Instr), decode cw = .ok i → wellFormed i = true ∧ encode i = cw

/-- Words written out from 30_encoding.md R38 and R39 decode to the commands they stand for (a sanity statement). -/
def Obligations.WrittenWordsDecode : Prop :=
  decode 0x0000000000000000 = .ok .nop ∧ decode 0x0000000000000502 = .ok (.regRead 5) ∧
  decode 0x0000000000000011 = .ok (.crcByte 0) ∧ decode 0x0000000000007E20 = .ok (.rxPush 0x7E) ∧
  decode 0x0000000000000134 = .ok (.encBuzzerPlay 1) ∧ decode 0x0000000000000040 = .ok .txPull ∧
  decode 0x0000003201F40036 = .ok (.encBeep 50 500) ∧ decode 0x0000001404E20035 = .ok (.encBuzzerQueue 20 1250) ∧
  decode 0x0000000000000234 = .error .rsvd ∧ decode 0xFFFFFFFFFFFFFFFF = .error .badOp

/-- 20_memory.md R27: byte `k` of the transfer is bits 8k+7 to 8k, and the block takes the whole word. -/
def Obligations.CommandWordTravelsLowByteFirst : Prop :=
  ∀ (cw : CmdWord) (rest : List Byte),
    (wordBytes cw).length = 8 ∧
    (∀ n : Nat, n < 8 → (byteAt (wordBytes cw) n).toNat = cw.toNat / 2 ^ (8 * n) % 2 ^ 8) ∧
    takeWord (wordBytes cw ++ rest) = some (cw, rest)

/-- 60_exceptions.md R100, the byte form of a response, with the codes of R102. -/
def Obligations.ResponsesAsBytes : Prop :=
  (∀ b : Byte, responseBytes ⟨.ok, .byte b⟩ = [0x00, b]) ∧
  (∀ hi lo : Byte, responseBytes ⟨.ok, .half (hi ++ lo)⟩ = [0x00, lo, hi]) ∧
  (∀ b3 b2 b1 b0 : Byte, responseBytes ⟨.ok, .word (b3 ++ b2 ++ b1 ++ b0)⟩ = [0x00, b0, b1, b2, b3]) ∧
  (∀ f : List Byte, responseBytes ⟨.ok, .frame f⟩ = 0x00 :: f) ∧
  [Status.ok, .badOp, .rsvd, .badReg, .rxFull, .fqEmpty, .stgFull, .badLength, .txFull, .txEmpty].map
      (fun e => responseBytes ⟨e, .none⟩) =
    [[0x00], [0x01], [0x02], [0x03], [0x04], [0x05], [0x06], [0x07], [0x08], [0x09]]

/-- 70_reset_and_hazards.md R112, for every instantiation of the block. -/
def Obligations.ResetLeavesTheStatedValues : Prop :=
  ∀ p : Params, (State.resetWith p).block =
      { crcAcc := 0xFFFF, rxBuf := [], fq := [], crcErrCnt := 0, stg := [], txq := [] } ∧
    Quiescent p (State.resetWith p).block ∧ State.reset.block = (State.resetWith p).block

/-- The invariant of the command boundary holds at reset, for every instantiation the parameters' rules admit
(10_state.md R22, 00_scope.md R6 to R8). -/
def Obligations.ResetMeetsTheInvariant : Prop :=
  (∀ p : Params, p.Ok → Invariant (State.resetWith p)) ∧ Invariant State.reset

/-- Every step keeps the invariant of the command boundary: the bounds of 10_state.md R12, only valid frames in FQ (R15),
the decoder quiescent (R22). -/
def Obligations.EveryStepKeepsTheInvariant : Prop :=
  ∀ s t : State, Invariant s → step s = .next t → Invariant t

/-- 20_memory.md R31, the idempotent commands: repeated at once they answer the same and change nothing more. -/
def Obligations.IdempotentCommandsRepeat : Prop :=
  ∀ (s : State) (i : Instr), Quiescent s.params s.block →
    (i = .nop ∨ (∃ idx, i = .regRead idx) ∨ i = .crcRead ∨ i = .crcInit ∨ i = .stgClear ∨ i = .softReset) →
    ∃ (t u : State) (r : Response), exec i s = .next t ∧ exec i t = .next u ∧ u.block = t.block ∧
      t.responses = s.responses ++ [r] ∧ u.responses = t.responses ++ [r]

/-- 10_state.md R12, the column 'written by', and 20_memory.md R31, the column 'changes state': an element a command
changes is one the tables name for it. -/
def Obligations.ElementsAreWrittenOnlyByTheirCommands : Prop :=
  ∀ (s t : State) (i : Instr), Quiescent s.params s.block → exec i s = .next t →
    (t.block.crcAcc ≠ s.block.crcAcc → i = .crcInit ∨ (∃ b, i = .crcByte b) ∨ i = .softReset) ∧
    (t.block.rxBuf ≠ s.block.rxBuf ∨ t.block.fq ≠ s.block.fq ∨ t.block.crcErrCnt ≠ s.block.crcErrCnt →
      (∃ b, i = .rxPush b) ∨ i = .rxPop ∨ i = .softReset) ∧
    (t.block.stg ≠ s.block.stg →
      (∃ b, i = .stgPut b) ∨ i = .stgClear ∨ i = .encSend ∨ i = .encDisplayText ∨ i = .softReset) ∧
    (t.block.txq ≠ s.block.txq →
      i = .encSend ∨ i = .encDisplayText ∨ (∃ c, i = .encBuzzerPlay c) ∨ (∃ w h, i = .encBuzzerQueue w h) ∨
      (∃ w h, i = .encBeep w h) ∨ i = .txPull ∨ i = .softReset)

/-- 42_encoder.md R85, 20_memory.md R29, R32 (b): whatever a word does, TXQ is as before, has lost its head byte, is
reset, or has gained whole valid frames at its tail. -/
def Obligations.TxqGainsOnlyWholeFrames : Prop :=
  ∀ s t : State, step s = .next t →
    t.block.txq = s.block.txq ∨ (∃ b, s.block.txq = b :: t.block.txq) ∨ t.block = Block.reset ∨
    ∃ frames : List (List Byte), frames ≠ [] ∧ (∀ f ∈ frames, ValidFrame f) ∧
      t.block.txq = s.block.txq ++ frames.flatten

/-! ## The CRC engine -/

/-- 40_crc.md R58: the source's step is eight iterations of the bitwise reflected update. -/
def Obligations.CrcStepEqualsTheReflectedUpdate : Prop :=
  ∀ (c : Half) (x : Byte), crcStep c x =
    (fun v : Half => (v >>> 1) ^^^ (if v.getLsbD 0 = true then 0x8408 else 0))^[8] (c ^^^ x.setWidth 16)

/-- 40_crc.md R57: with `b` kept in 8 bits, and with every value an unbounded integer, the step computes the same; in
unbounded integers `b` stays at most 0xFF. -/
def Obligations.CrcStepNeverDiscardsABit : Prop :=
  ∀ (c : Half) (x : Byte),
    x.toNat ^^^ (c.toNat &&& 0x00FF) ≤ 0xFF ∧
    (let b : Nat := x.toNat ^^^ (c.toNat &&& 0x00FF)
     b ^^^ ((b &&& 0x000F) <<< 4) ≤ 0xFF) ∧
    (crcStep c x =
      (let b : Byte := x ^^^ c.setWidth 8
       let b := b ^^^ ((b &&& 0x0F) <<< 4)
       ((b.setWidth 16 <<< 8) ||| (c >>> 8)) ^^^ (b.setWidth 16 >>> 4) ^^^ (b.setWidth 16 <<< 3))) ∧
    ((crcStep c x).toNat =
      (let b : Nat := x.toNat ^^^ (c.toNat &&& 0x00FF)
       let b := b ^^^ ((b &&& 0x000F) <<< 4)
       ((b <<< 8) ||| (c.toNat >>> 8)) ^^^ (b >>> 4) ^^^ (b <<< 3)))

/-- 40_crc.md R62: whatever other commands stand between. -/
def Obligations.CrcUnitComputesTheCrcOfTheFedBytes : Prop :=
  ∀ (s : State) (cmds : List Instr), (∀ i ∈ cmds, i ≠ .crcInit ∧ i ≠ .softReset) →
    ∃ t : State, runCommands (.crcInit :: cmds) s = .next t ∧ t.block.crcAcc = crc16 (fedBytes cmds)

/-! ## The decoder -/

/-- 70_reset_and_hazards.md R117, 41_decoder.md R64: fewer than five bytes are not examined, SYNC bytes included. -/
def Obligations.DecoderLeavesAShortBuffer : Prop :=
  ∀ (p : Params) (k : Block), k.rxBuf.length < 5 → decStep p k = .quiescentShort ∧ decRun p k = k

/-- 41_decoder.md R65. -/
def Obligations.DecoderDropsASyncSeparator : Prop :=
  ∀ (p : Params) (k : Block) (rest : List Byte), k.rxBuf = 0x7E :: rest → 4 ≤ rest.length →
    decStep p k = .dropSync ∧ decRun p k = decRun p { k with rxBuf := rest }

/-- 41_decoder.md R66. -/
def Obligations.DecoderDropsABadLength : Prop :=
  ∀ (p : Params) (k : Block) (b : Byte) (rest : List Byte), k.rxBuf = b :: rest → 4 ≤ rest.length →
    (b.toNat < 5 ∨ 128 < b.toNat) → decStep p k = .dropBadLen ∧ decRun p k = decRun p { k with rxBuf := rest }

/-- 41_decoder.md R67: the decoder waits, and the wait ends only by an RX_PUSH that completes the candidate, or by a
reset. -/
def Obligations.DecoderWaitsForTheWholeCandidate : Prop :=
  (∀ (p : Params) (k : Block) (b : Byte) (rest : List Byte), k.rxBuf = b :: rest → 4 ≤ rest.length →
    5 ≤ b.toNat → b.toNat ≤ 128 → b ≠ 0x7E → rest.length + 1 < b.toNat →
    decStep p k = .wait ∧ Quiescent p k ∧ decRun p k = k) ∧
  (∀ (s t : State) (i : Instr), decStep s.params s.block = .wait → exec i s = .next t → i ≠ .softReset →
    (∀ b, i = .rxPush b → s.block.rxBuf.length + 1 < (byteAt s.block.rxBuf 0).toNat) →
    decStep t.params t.block = .wait ∧ s.block.rxBuf <+: t.block.rxBuf)

/-- 41_decoder.md R68. -/
def Obligations.DecoderDropsAnUnterminatedCandidate : Prop :=
  ∀ (p : Params) (k : Block) (b : Byte) (rest : List Byte), k.rxBuf = b :: rest →
    5 ≤ b.toNat → b.toNat ≤ 128 → b ≠ 0x7E → b.toNat ≤ rest.length + 1 → byteAt k.rxBuf (b.toNat - 1) ≠ 0x7E →
    decStep p k = .dropNoSync ∧ decRun p k = decRun p { k with rxBuf := rest }

/-- 41_decoder.md R69. -/
def Obligations.DecoderCountsAndDropsACrcError : Prop :=
  ∀ (p : Params) (k : Block) (b : Byte) (rest : List Byte), k.rxBuf = b :: rest →
    5 ≤ b.toNat → b.toNat ≤ 128 → b ≠ 0x7E → b.toNat ≤ rest.length + 1 → byteAt k.rxBuf (b.toNat - 1) = 0x7E →
    crc16 (k.rxBuf.take (b.toNat - 3)) ≠ byteAt k.rxBuf (b.toNat - 3) ++ byteAt k.rxBuf (b.toNat - 2) →
    decStep p k = .dropCrc ∧
    decRun p k = decRun p { k with rxBuf := rest, crcErrCnt := BitVec.ofNat 32 (k.crcErrCnt.toNat + 1) }

/-- 41_decoder.md R70: a valid frame that finds FQ full is held, and every command but RX_POP and a reset leaves it at
the head of RXBUF. -/
def Obligations.DecoderHoldsAFrameWhileTheQueueIsFull : Prop :=
  (∀ (p : Params) (k : Block) (f rest : List Byte), ValidFrame f → k.rxBuf = f ++ rest → k.fq.length = p.fqDepth →
    decStep p k = .hold ∧ Quiescent p k ∧ decRun p k = k) ∧
  (∀ (s t : State) (i : Instr), decStep s.params s.block = .hold → exec i s = .next t → i ≠ .rxPop → i ≠ .softReset →
    decStep t.params t.block = .hold ∧ s.block.rxBuf <+: t.block.rxBuf ∧ t.block.fq = s.block.fq ∧
    t.block.crcErrCnt = s.block.crcErrCnt)

/-- 41_decoder.md R71. -/
def Obligations.DecoderEmitsAValidFrame : Prop :=
  ∀ (p : Params) (k : Block) (f rest : List Byte), ValidFrame f → k.rxBuf = f ++ rest → k.fq.length ≠ p.fqDepth →
    decStep p k = .emit ∧ decRun p k = decRun p { k with rxBuf := rest, fq := k.fq ++ [f] }

/-- 41_decoder.md R72, R73: the run ends quiescent, a quiescent decoder runs nowhere, and no more than `len(RXBUF)`
steps are needed. -/
def Obligations.DecoderRunEndsQuiescent : Prop :=
  ∀ (p : Params) (k : Block), Quiescent p (decRun p k) ∧ (Quiescent p k → decRun p k = k) ∧
    (∀ fuel : Nat, k.rxBuf.length ≤ fuel → decRunFor fuel p k = decRun p k) ∧
    (Quiescent p k ↔ decStep p k = .quiescentShort ∨ decStep p k = .wait ∨ decStep p k = .hold) ∧
    (¬Quiescent p k → (applyOutcome (decStep p k) k).rxBuf.length < k.rxBuf.length)

/-- 10_state.md R24, 20_memory.md R32 (a): a run cuts the head of RXBUF into dropped single bytes and whole valid
frames, and appends exactly those frames to FQ, in their order. -/
def Obligations.DecoderRunCutsTheBufferIntoFrames : Prop :=
  ∀ (p : Params) (k : Block), ∃ pieces : List (List Byte),
    k.rxBuf = pieces.flatten ++ (decRun p k).rxBuf ∧
    (∀ q ∈ pieces, q.length = 1 ∨ ValidFrame q) ∧
    (decRun p k).fq = k.fq ++ pieces.filter (fun q => 1 < q.length)

/-- 10_state.md R23: with room in FQ at a command boundary, RXBUF holds at most 127 bytes and RX_PUSH is performed. -/
def Obligations.RoomInTheQueueBoundsTheBuffer : Prop :=
  ∀ s : State, Invariant s → s.block.fq.length < s.params.fqDepth →
    s.block.rxBuf.length ≤ 127 ∧
    ∀ (b : Byte) (t : State), exec (.rxPush b) s = .next t → t.responses = s.responses ++ [⟨.ok, .none⟩]

/-- 41_decoder.md R76: the RX_POP that frees a slot of a full FQ emits the held frame, and no frame is lost. -/
def Obligations.PopEmitsTheHeldFrame : Prop :=
  ∀ (s : State) (f : List Byte) (rest : List (List Byte)), s.block.fq = f :: rest →
    decStep s.params s.block = .hold →
    ∃ t : State, exec .rxPop s = .next t ∧ t.responses = s.responses ++ [⟨.ok, .frame f⟩] ∧
      t.block.fq = rest ++ [s.block.rxBuf.take (byteAt s.block.rxBuf 0).toNat] ∧
      t.block.rxBuf <:+ s.block.rxBuf.drop (byteAt s.block.rxBuf 0).toNat

/-- 41_decoder.md R77: however the bytes are split into RX_PUSH commands, with other commands between, the decoder ends
as one run over the whole byte sequence does. -/
def Obligations.ChunkingDoesNotMatter : Prop :=
  ∀ (s t : State) (cmds : List Instr), s.params.Ok → Quiescent s.params s.block →
    (∀ i ∈ cmds, i ≠ .rxPop ∧ i ≠ .softReset) → runCommands cmds s = .next t →
    t.block.fq.length < s.params.fqDepth →
    t.block.rxBuf = (decRun s.params { s.block with rxBuf := s.block.rxBuf ++ pushedBytes cmds }).rxBuf ∧
    t.block.fq = (decRun s.params { s.block with rxBuf := s.block.rxBuf ++ pushedBytes cmds }).fq ∧
    t.block.crcErrCnt = (decRun s.params { s.block with rxBuf := s.block.rxBuf ++ pushedBytes cmds }).crcErrCnt

/-- 41_decoder.md R79: no word makes the decoder put a frame of length 126 into FQ, and a length byte of 126 is dropped
as a sync separator. -/
def Obligations.NoFrameOfLength126IsEmitted : Prop :=
  (∀ (s t : State), (∀ f ∈ s.block.fq, f.length ≠ 126) → step s = .next t → ∀ f ∈ t.block.fq, f.length ≠ 126) ∧
  (∀ (p : Params) (k : Block), Config.messageMin ≤ k.rxBuf.length → (byteAt k.rxBuf 0).toNat = 126 →
    decStep p k = .dropSync ∧ decRun p k = decRun p { k with rxBuf := k.rxBuf.drop 1 })

/-- 41_decoder.md R81 (a) and (b), with the conditions of 90_conflicts.md C4. -/
def Obligations.DecoderResynchronizes : Prop :=
  ∀ (f1 f2 tail : List Byte) (at_ : Nat) (x : Byte), ValidFrame f1 → ValidFrame f2 →
    1 ≤ at_ → at_ ≤ f1.length - 2 →
    crc16 ((f1.set at_ x).take (f1.length - 3)) ≠
      byteAt (f1.set at_ x) (f1.length - 3) ++ byteAt (f1.set at_ x) (f1.length - 2) →
    (∀ (p : Params) (k : Block) (rest : List Byte), k.rxBuf = f1.set at_ x ++ rest → decStep p k = .dropCrc) ∧
    (∀ s t : State, s.params.Ok → s.block.rxBuf = [] →
      128 ≤ f2.length + tail.length →
      (∀ j n : Nat, 0 < j → j < f1.length → ¬ValidFrame (((f1.set at_ x ++ f2 ++ tail).drop j).take n)) →
      runCommands (pushAll (f1.set at_ x ++ f2 ++ tail)) s = .next t →
      t.block.fq.length < s.params.fqDepth →
      ∃ more : List (List Byte), t.block.fq = s.block.fq ++ f2 :: more)

/-- 41_decoder.md R82. -/
def Obligations.GarbageMakesNoFrame : Prop :=
  ∀ (s : State) (bytes : List Byte), s.block.rxBuf = [] →
    ((∀ b ∈ bytes, b = 0x7E) ∨ (∀ b ∈ bytes, b.toNat < 5 ∨ 128 < b.toNat)) →
    ∃ t : State, runCommands (pushAll bytes) s = .next t ∧ t.block.fq = s.block.fq ∧
      t.block.crcErrCnt = s.block.crcErrCnt ∧ t.block.rxBuf.length ≤ 4

/-! ## The encoder -/

/-- 42_encoder.md R83: the frame of a body has its length in its first byte, the body after it, the CRC of both most
significant byte first, and SYNC at its end. It is a valid frame (41_decoder.md R63) exactly where R84 accepts its
length. -/
def Obligations.EncoderBuildsValidFrames : Prop :=
  ∀ body : List Byte, 1 ≤ body.length → body.length ≤ 124 →
    (byteAt (buildFrame body) 0).toNat = body.length + 4 ∧ (buildFrame body).length = body.length + 4 ∧
    buildFrame body =
      (let pre := BitVec.ofNat 8 (body.length + 4) :: body
       pre ++ [(crc16 pre).extractLsb' 8 8, (crc16 pre).extractLsb' 0 8, 0x7E]) ∧
    (ValidFrame (buildFrame body) ↔ body.length ≠ 122)

/-- 42_encoder.md R96: the frames of a performed encoder command, pushed into a decoder with an empty RXBUF and room for
them, come out as exactly those frames, with the body each was given. -/
def Obligations.EncodedFramesDecodeToThemselves : Prop :=
  ∀ (s t : State) (i : Instr), encodedBodies s.block i ≠ [] → exec i s = .next t →
    t.responses = s.responses ++ [⟨.ok, .none⟩] →
    t.block.txq = s.block.txq ++ ((encodedBodies s.block i).map buildFrame).flatten ∧
    (∀ body ∈ encodedBodies s.block i, ((buildFrame body).drop 1).take ((buildFrame body).length - 4) = body) ∧
    ∀ r : State, r.params.Ok → r.block.rxBuf = [] →
      r.block.fq.length + (encodedBodies s.block i).length ≤ r.params.fqDepth →
      ∃ u : State, runCommands (pushAll ((encodedBodies s.block i).map buildFrame).flatten) r = .next u ∧
        u.block = { r.block with fq := r.block.fq ++ (encodedBodies s.block i).map buildFrame }

/-- 30_encoding.md R46 to R52: the body of each message, byte by byte, and the length of its frame. -/
def Obligations.MessagesFollowTheirLayouts : Prop :=
  (∀ text : List Byte, messageBody (.displayText text) = 10 :: BitVec.ofNat 8 text.length :: text ∧
    (buildFrame (messageBody (.displayText text))).length = text.length + 6) ∧
  (∀ hi lo : Byte, messageBody (.knobEvent (hi ++ lo)) = [12, lo, hi] ∧
    (buildFrame (messageBody (.knobEvent (hi ++ lo)))).length = 7) ∧
  (∀ b : Byte, messageBody (.buttonEvent b) = [13, b] ∧ (buildFrame (messageBody (.buttonEvent b))).length = 6) ∧
  messageBody (.buzzerPlay true) = [14, 1] ∧ messageBody (.buzzerPlay false) = [14, 0] ∧
  (∀ c : Bool, (buildFrame (messageBody (.buzzerPlay c))).length = 6) ∧
  (∀ w3 w2 w1 w0 h1 h0 : Byte, messageBody (.buzzerToneQueue (w3 ++ w2 ++ w1 ++ w0) (h1 ++ h0)) =
      [15, 8, w0, w1, w2, w3, h0, h1, h0, h1]) ∧
  (∀ (w : Word) (h : Half), (buildFrame (messageBody (.buzzerToneQueue w h))).length = 14) ∧
  (∀ b : Byte, messageBody (.buzzerEvent b) = [16, b] ∧ (buildFrame (messageBody (.buzzerEvent b))).length = 6)

/-- 30_encoding.md R42: what the pseudo-instructions SEND, DISPLAY_TEXT and CRC_OF do when their expansions are run. -/
def Obligations.PseudoInstructionsDoTheirWork : Prop :=
  ∀ (s : State) (bytes : List Byte), Quiescent s.params s.block →
    (1 ≤ bytes.length → bytes.length ≤ 124 → bytes.length ≠ 122 →
      s.block.txq.length + (bytes.length + 4) ≤ s.params.txCap →
      ∃ t : State, runCommands (expandPseudo (.send bytes)) s = .next t ∧
        t.block = { s.block with stg := [], txq := s.block.txq ++ buildFrame bytes }) ∧
    (bytes.length ≤ 122 → bytes.length ≠ 120 → s.block.txq.length + (bytes.length + 6) ≤ s.params.txCap →
      ∃ t : State, runCommands (expandPseudo (.displayText bytes)) s = .next t ∧
        t.block = { s.block with
          stg := [], txq := s.block.txq ++ buildFrame (10 :: BitVec.ofNat 8 bytes.length :: bytes) }) ∧
    (∃ t : State, runCommands (expandPseudo (.crcOf bytes)) s = .next t ∧
      t.block = { s.block with crcAcc := crc16 bytes } ∧
      t.responses.getLast? = some ⟨.ok, .half (crc16 bytes)⟩)

/-- 42_encoder.md R94, the host-side derivation in exact arithmetic, and the frequency above which the half-period fits
its field. The third clause is not R94's, which makes `freq_hz > 0` a precondition of the host: that a host refuses other
frequencies is 93_implementation_defined.md I4's treatment, and the form of HOST_ARITH and the refusal's name are the
model's choice (log entry 11). -/
def Obligations.ToneOperandsFollowTheDerivation : Prop :=
  (∀ freq : ℚ, 0 < freq → ((1000000 / freq).floor / 2 ≤ 65535 ↔ 1000000 / 131072 < freq)) ∧
  (∀ freq duration : ℚ, 1000000 / 131072 < freq → max 1 (freq * duration).floor ≤ 2 ^ 32 - 1 →
    ∃ (cycles : Word) (half : Half), toneOperands exactArith freq duration = .ok (cycles, half) ∧
      (cycles.toNat : Int) = max 1 (freq * duration).floor ∧
      (half.toNat : Int) = (1000000 / freq).floor / 2) ∧
  (∀ (arith : HostArith) (freq duration : ℚ), freq ≤ 0 →
    toneOperands arith freq duration = .error .frequencyNotPositive)
end

