-- ==== Sys2Proof/Laws/Decode.lean ====
section
/-! SUPPORT. A command word and its four fields determine each other, and a mask acts on each field by itself. -/

namespace Sys2Proof

@[simp] theorem opField_packWord (op a : Byte) (h : Half) (w : Word) : opField (packWord op a h w) = op := by
  ext i hi
  have : i < 64 ∧ i < 32 ∧ i < 16 := by omega
  simp [opField, packWord, hi, this]

@[simp] theorem aField_packWord (op a : Byte) (h : Half) (w : Word) : aField (packWord op a h w) = a := by
  ext i hi
  have : 8 + i < 64 ∧ 8 + i < 32 ∧ 8 + i < 16 := by omega
  simp [aField, packWord, hi, this]

@[simp] theorem hField_packWord (op a : Byte) (h : Half) (w : Word) : hField (packWord op a h w) = h := by
  ext i hi
  have : 16 + i < 64 ∧ 16 + i < 32 ∧ ¬16 + i < 8 := by omega
  have ha : BitVec.getLsbD a (16 + i - 8) = false := BitVec.getLsbD_of_ge _ _ (by omega)
  have ho : BitVec.getLsbD op (16 + i) = false := BitVec.getLsbD_of_ge _ _ (by omega)
  simp [hField, packWord, hi, this, ha, ho]

@[simp] theorem wField_packWord (op a : Byte) (h : Half) (w : Word) : wField (packWord op a h w) = w := by
  ext i hi
  have : 32 + i < 64 ∧ ¬32 + i < 8 ∧ ¬32 + i < 16 := by omega
  have hh : BitVec.getLsbD h (32 + i - 16) = false := BitVec.getLsbD_of_ge _ _ (by omega)
  have ha : BitVec.getLsbD a (32 + i - 8) = false := BitVec.getLsbD_of_ge _ _ (by omega)
  have ho : BitVec.getLsbD op (32 + i) = false := BitVec.getLsbD_of_ge _ _ (by omega)
  simp [wField, packWord, hi, this, hh, ha, ho]

/-- A word is what its fields pack to. -/
theorem packWord_fields (cw : CmdWord) : packWord (opField cw) (aField cw) (hField cw) (wField cw) = cw := by
  ext i hi
  simp only [packWord, opField, aField, hField, wField, BitVec.getElem_or, BitVec.getElem_shiftLeft,
    BitVec.getLsbD_extractLsb', BitVec.getElem_setWidth]
  by_cases h1 : i < 8
  · have : i < 32 ∧ i < 16 := by omega
    simp [*]
  by_cases h2 : i < 16
  · have : i < 32 ∧ i - 8 < 8 ∧ 8 + (i - 8) = i := by omega
    simp [*]
  by_cases h3 : i < 32
  · have : i - 16 < 16 ∧ ¬i - 8 < 8 ∧ 16 + (i - 16) = i := by omega
    simp [*]
  · have : i - 32 < 32 ∧ ¬i - 16 < 16 ∧ ¬i - 8 < 8 ∧ 32 + (i - 32) = i := by omega
    simp [*]

/-- Words with the same fields are the same word. -/
theorem packWord_inj {op op' a a' : Byte} {h h' : Half} {w w' : Word} :
    packWord op a h w = packWord op' a' h' w' ↔ op = op' ∧ a = a' ∧ h = h' ∧ w = w' := by
  constructor
  · intro e
    exact ⟨by simpa using congrArg opField e, by simpa using congrArg aField e, by simpa using congrArg hField e,
      by simpa using congrArg wField e⟩
  · rintro ⟨rfl, rfl, rfl, rfl⟩
    rfl

@[simp] theorem opField_and (x y : CmdWord) : opField (x &&& y) = opField x &&& opField y := by
  ext i hi
  simp [opField]

@[simp] theorem aField_and (x y : CmdWord) : aField (x &&& y) = aField x &&& aField y := by
  ext i hi
  simp [aField]

@[simp] theorem hField_and (x y : CmdWord) : hField (x &&& y) = hField x &&& hField y := by
  ext i hi
  simp [hField]

@[simp] theorem wField_and (x y : CmdWord) : wField (x &&& y) = wField x &&& wField y := by
  ext i hi
  simp [wField]

/-- Words are equal when their fields are. -/
theorem word_eq_iff_fields (x y : CmdWord) :
    x = y ↔ opField x = opField y ∧ aField x = aField y ∧ hField x = hField y ∧ wField x = wField y := by
  constructor
  · rintro rfl
    exact ⟨rfl, rfl, rfl, rfl⟩
  · rintro ⟨h1, h2, h3, h4⟩
    rw [← packWord_fields x, ← packWord_fields y, h1, h2, h3, h4]

end Sys2Proof
end

