-- ==== Sys2Proof/Laws/Operands.lean ====
section
/-! SUPPORT. The byte forms of multi-byte values, and the length of a built frame. -/

namespace Sys2Proof.Machine

@[simp] theorem le16_length (v : Half) : (le16 v).length = 2 := rfl
@[simp] theorem le32_length (v : Word) : (le32 v).length = 4 := rfl
@[simp] theorem be16_length (v : Half) : (be16 v).length = 2 := rfl

/-- Bit `i` of two bytes put together. -/
theorem half_getLsbD (hi lo : Byte) (i : Nat) :
    BitVec.getLsbD (hi ++ lo : Half) i = if i < 8 then lo.getLsbD i else hi.getLsbD (i - 8) :=
  BitVec.getLsbD_append

/-- `(hi << 8) | lo` is the two bytes put together. -/
theorem be16Value_eq_append (hi lo : Byte) : be16Value hi lo = hi ++ lo := by
  apply BitVec.eq_of_getLsbD_eq
  intro i h
  rw [half_getLsbD]
  by_cases h8 : i < 8
  · simp [be16Value, h8, h]
  · have : BitVec.getLsbD lo i = false := BitVec.getLsbD_of_ge _ _ (by omega)
    simp [be16Value, h8, h, this]

/-- Reading the two bytes of a CRC field gives the CRC back (40_crc.md R55, 41_decoder.md R63). -/
theorem be16Value_be16 (v : Half) : be16Value (byteAt (be16 v) 0) (byteAt (be16 v) 1) = v := by
  ext i h
  by_cases h8 : i < 8
  · simp [be16, byteAt, be16Value, h8, h]
  · have : i - 8 < 8 ∧ 8 + (i - 8) = i := by omega
    simp [be16, byteAt, be16Value, h8, h, this]

/-- `le16` of two bytes put together: the low byte comes first (20_memory.md R26). -/
theorem le16_append (hi lo : Byte) : le16 (hi ++ lo) = [lo, hi] := by
  simp only [le16, List.cons.injEq, and_true]
  refine ⟨?_, ?_⟩ <;>
    (ext i h; simp only [BitVec.getElem_extractLsb', half_getLsbD]; interval_cases i <;> rfl)

/-- `le32` of four bytes put together: the low byte comes first (20_memory.md R26). -/
theorem le32_append (b3 b2 b1 b0 : Byte) : le32 (b3 ++ b2 ++ b1 ++ b0) = [b0, b1, b2, b3] := by
  have h1 : ∀ i, BitVec.getLsbD (b3 ++ b2 ++ b1 ++ b0 : Word) i =
      if i < 8 then b0.getLsbD i else BitVec.getLsbD (b3 ++ b2 ++ b1) (i - 8) := fun _ => BitVec.getLsbD_append
  simp only [le32, List.cons.injEq, and_true]
  refine ⟨?_, ?_, ?_, ?_⟩ <;>
    (ext i h; simp only [BitVec.getElem_extractLsb', h1, BitVec.getLsbD_append]; interval_cases i <;> rfl)

@[simp] theorem buildFrame_length (body : List Byte) : (buildFrame body).length = body.length + 4 := by
  simp [buildFrame]

end Sys2Proof.Machine
end

