-- ==== Sys2Proof/Laws/State.lean ====
section
/-! SUPPORT. One lemma per field of each update of the state, so that no proof unfolds one. -/

namespace Sys2Proof.Machine

@[simp] theorem answer_block (s : State) (k : Block) (r : Response) : (answer s k r).block = k := rfl
@[simp] theorem answer_params (s : State) (k : Block) (r : Response) : (answer s k r).params = s.params := rfl
@[simp] theorem answer_port (s : State) (k : Block) (r : Response) : (answer s k r).port = s.port.tail := rfl
@[simp] theorem answer_responses (s : State) (k : Block) (r : Response) :
    (answer s k r).responses = s.responses ++ [r] := rfl

@[simp] theorem afterRefusal_block (s : State) (e : Status) : (afterRefusal s e).block = s.block := rfl
@[simp] theorem afterRefusal_params (s : State) (e : Status) : (afterRefusal s e).params = s.params := rfl
@[simp] theorem afterRefusal_port (s : State) (e : Status) : (afterRefusal s e).port = s.port.tail := rfl
@[simp] theorem afterRefusal_responses (s : State) (e : Status) :
    (afterRefusal s e).responses = s.responses ++ [⟨e, .none⟩] := rfl

@[simp] theorem afterCommand_block (s : State) (k : Block) (d : RespData) : (afterCommand s k d).block = k := rfl
@[simp] theorem afterCommand_params (s : State) (k : Block) (d : RespData) :
    (afterCommand s k d).params = s.params := rfl
@[simp] theorem afterCommand_port (s : State) (k : Block) (d : RespData) :
    (afterCommand s k d).port = s.port.tail := rfl
@[simp] theorem afterCommand_responses (s : State) (k : Block) (d : RespData) :
    (afterCommand s k d).responses = s.responses ++ [⟨.ok, d⟩] := rfl

@[simp] theorem refuseWith_eq_afterRefusal (s : State) (e : Status) : refuseWith s e = afterRefusal s e := rfl
@[simp] theorem completeWith_eq_afterCommand (s : State) (k : Block) (d : RespData) :
    completeWith s k d = afterCommand s (decRun s.params k) d := rfl

@[simp] theorem dropHead_crcAcc (k : Block) : (dropHead k).crcAcc = k.crcAcc := rfl
@[simp] theorem dropHead_rxBuf (k : Block) : (dropHead k).rxBuf = k.rxBuf.drop 1 := rfl
@[simp] theorem dropHead_fq (k : Block) : (dropHead k).fq = k.fq := rfl
@[simp] theorem dropHead_crcErrCnt (k : Block) : (dropHead k).crcErrCnt = k.crcErrCnt := rfl
@[simp] theorem dropHead_stg (k : Block) : (dropHead k).stg = k.stg := rfl
@[simp] theorem dropHead_txq (k : Block) : (dropHead k).txq = k.txq := rfl

@[simp] theorem resetWith_block (p : Params) : (State.resetWith p).block = Block.reset := rfl
@[simp] theorem resetWith_params (p : Params) : (State.resetWith p).params = p := rfl
@[simp] theorem resetWith_port (p : Params) : (State.resetWith p).port = [] := rfl
@[simp] theorem resetWith_responses (p : Params) : (State.resetWith p).responses = [] := rfl

@[simp] theorem withFetchWord_block (s : State) (nbits w : Nat) : (s.withFetchWord nbits w).block = s.block := rfl
@[simp] theorem withFetchWord_params (s : State) (nbits w : Nat) : (s.withFetchWord nbits w).params = s.params := rfl
@[simp] theorem withFetchWord_port (s : State) (nbits w : Nat) :
    (s.withFetchWord nbits w).port = tableWord nbits w :: s.port := rfl
@[simp] theorem withFetchWord_responses (s : State) (nbits w : Nat) :
    (s.withFetchWord nbits w).responses = s.responses := rfl

end Sys2Proof.Machine
end

