-- ==== Sys2Proof/Laws/Decoder.lean ====
section
/-! SUPPORT. What a decoder step and the run can do, said once (41_decoder.md sections 2 and 3). -/

namespace Sys2Proof.Machine

@[simp] theorem applyOutcome_crcAcc (o : DecOutcome) (k : Block) : (applyOutcome o k).crcAcc = k.crcAcc := by
  cases o <;> rfl
@[simp] theorem applyOutcome_stg (o : DecOutcome) (k : Block) : (applyOutcome o k).stg = k.stg := by
  cases o <;> rfl
@[simp] theorem applyOutcome_txq (o : DecOutcome) (k : Block) : (applyOutcome o k).txq = k.txq := by
  cases o <;> rfl

/-- A decoder step sees RXBUF and how full FQ is, and nothing else (10_state.md R20). -/
theorem decStep_congr {p : Params} {k k' : Block} (hb : k'.rxBuf = k.rxBuf) (hq : k'.fq.length = k.fq.length) :
    decStep p k' = decStep p k := by
  simp [decStep, hb, hq]

/-- A buffer of five bytes and more is not empty. -/
theorem rxBuf_length_of_enabled {p : Params} {k : Block} (h : stepEnabled (decStep p k) = true) :
    Config.messageMin ≤ k.rxBuf.length := by
  by_contra hn
  simp [decStep, Nat.not_le.mp hn, stepEnabled] at h

/-- What EMIT has tested of the head byte: it is a length that RXBUF holds (41_decoder.md R64). -/
theorem head_of_emit {p : Params} {k : Block} (h : decStep p k = .emit) :
    Config.messageMin ≤ (byteAt k.rxBuf 0).toNat ∧ (byteAt k.rxBuf 0).toNat ≤ k.rxBuf.length := by
  unfold decStep at h
  dsimp only at h
  split at h; · cases h
  split at h; · cases h
  split at h; · cases h
  split at h; · cases h
  omega

/-- An enabled step shortens RXBUF (41_decoder.md R72). -/
theorem applyOutcome_shortens {p : Params} {k : Block} (h : stepEnabled (decStep p k) = true) :
    (applyOutcome (decStep p k) k).rxBuf.length < k.rxBuf.length := by
  have hn := rxBuf_length_of_enabled h
  simp only [Config.messageMin] at hn
  cases ho : decStep p k <;> simp only [ho, stepEnabled] at h <;> simp only [applyOutcome, dropHead, List.length_drop]
  case emit => have := head_of_emit ho; simp only [Config.messageMin] at this; omega
  all_goals first | omega | cases h

/-- With enough fuel the run does not depend on it. -/
theorem decRunFor_eq {p : Params} (n : Nat) : ∀ {m : Nat} {k : Block}, k.rxBuf.length ≤ n → k.rxBuf.length ≤ m →
    decRunFor n p k = decRunFor m p k := by
  induction n with
  | zero =>
    intro m k hn _
    have h : stepEnabled (decStep p k) = false := by
      by_contra hne
      have := rxBuf_length_of_enabled (by simpa using hne : stepEnabled (decStep p k) = true)
      simp only [Config.messageMin] at this
      omega
    cases m <;> simp [decRunFor, h]
  | succ n ih =>
    intro m k hn hm
    by_cases h : stepEnabled (decStep p k) = true
    · have hs := applyOutcome_shortens h
      obtain _ | m := m
      · omega
      simp only [decRunFor, h, if_true]
      exact ih (by omega) (by omega)
    · cases m <;> simp [decRunFor, h]

/-- The run, one step at a time: `dec_run` as 41_decoder.md R73 writes it. -/
theorem decRun_unfold (p : Params) (k : Block) :
    decRun p k = if stepEnabled (decStep p k) then decRun p (applyOutcome (decStep p k) k) else k := by
  rw [decRun, decRunFor_eq (m := k.rxBuf.length + 1) _ le_rfl (by omega), decRunFor]
  split
  · next h => exact decRunFor_eq _ (Nat.le_of_lt (applyOutcome_shortens h)) le_rfl
  · rfl

/-- What holds before a run and is kept by every enabled step holds after the run. -/
theorem decRun_induction {p : Params} {P : Block → Prop}
    (step : ∀ k, P k → stepEnabled (decStep p k) = true → P (applyOutcome (decStep p k) k)) {k : Block} (h : P k) :
    P (decRun p k) := by
  have go : ∀ n k, P k → P (decRunFor n p k) := by
    intro n
    induction n with
    | zero => exact fun _ hk => hk
    | succ n ih =>
      intro k hk
      rw [decRunFor]
      split
      · next hs => exact ih _ (step k hk hs)
      · exact hk
  exact go _ k h

@[simp] theorem decRun_crcAcc (p : Params) (k : Block) : (decRun p k).crcAcc = k.crcAcc :=
  decRun_induction (P := fun k' => k'.crcAcc = k.crcAcc) (fun _ h _ => by simpa using h) rfl
@[simp] theorem decRun_stg (p : Params) (k : Block) : (decRun p k).stg = k.stg :=
  decRun_induction (P := fun k' => k'.stg = k.stg) (fun _ h _ => by simpa using h) rfl
@[simp] theorem decRun_txq (p : Params) (k : Block) : (decRun p k).txq = k.txq :=
  decRun_induction (P := fun k' => k'.txq = k.txq) (fun _ h _ => by simpa using h) rfl

/-- A quiescent decoder runs nowhere. -/
theorem decRun_of_quiescent {p : Params} {k : Block} (h : Quiescent p k) : decRun p k = k := by
  rw [decRun_unfold, h]
  rfl

/-- A block whose RXBUF and FQ are those of a quiescent one is quiescent. -/
theorem quiescent_congr {p : Params} {k k' : Block} (hb : k'.rxBuf = k.rxBuf) (hq : k'.fq = k.fq)
    (h : Quiescent p k) : Quiescent p k' := by
  rw [Quiescent, decStep_congr hb (by rw [hq])]
  exact h

end Sys2Proof.Machine
end

