-- ==== Sys2Proof/Laws/HostTone.lean ====
section
/-! SUPPORT. What the host-side tone derivation answers, said once (42_encoder.md section 5). -/

namespace Sys2Proof.Machine

/-- A frequency not above 0 is refused in every arithmetic. -/
theorem toneOperands_of_not_positive {arith : HostArith} {freq duration : ℚ} (h : freq ≤ 0) :
    toneOperands arith freq duration = .error .frequencyNotPositive := by
  simp [toneOperands, h]

/-- In exact arithmetic the product and the quotient go to their fields as they are. -/
theorem toneOperands_exact {freq duration : ℚ} (h : 0 < freq) :
    toneOperands exactArith freq duration = toneFields (freq * duration) (1000000 / freq) := by
  simp [toneOperands, exactArith, heldByHost, Rat.not_le.mpr h, bind, Except.bind]

/-- Where the arithmetic holds every number finitely and the frequency above 0, the held results go to their fields. -/
theorem toneOperands_of_held {arith : HostArith} {freq duration f d product quotient : ℚ} (h : 0 < freq)
    (hf : arith.round freq = some f) (hd : arith.round duration = some d) (hf0 : 0 < f)
    (hp : arith.round (f * d) = some product) (hq : arith.round (1000000 / f) = some quotient) :
    toneOperands arith freq duration = toneFields product quotient := by
  simp [toneOperands, heldByHost, Rat.not_le.mpr h, Rat.not_le.mpr hf0, hf, hd, hp, hq, bind, Except.bind]

/-- A frequency that the host holds as 0 or below is refused. -/
theorem toneOperands_of_held_not_positive {arith : HostArith} {freq duration f d : ℚ} (h : 0 < freq)
    (hf : arith.round freq = some f) (hd : arith.round duration = some d) (hf0 : f ≤ 0) :
    toneOperands arith freq duration = .error .frequencyNotPositive := by
  simp [toneOperands, heldByHost, Rat.not_le.mpr h, hf0, hf, hd, bind, Except.bind]

end Sys2Proof.Machine
end

