-- ==== Sys2Proof/Laws/Ops.lean ====
section
/-! SUPPORT. What the shared operations of a command can do, said once. -/

namespace Sys2Proof.Machine

/-- A command whose rule refuses ends with that status and nothing else. -/
theorem perform_of_error {rule : Params → Block → Performed} {s : State} {e : Status}
    (h : rule s.params s.block = .error e) : perform rule s = .next (afterRefusal s e) := by
  simp [perform, h]

/-- A command whose rule responds ends with the decoder's run. -/
theorem perform_of_ok {rule : Params → Block → Performed} {s : State} {k : Block} {d : RespData}
    (h : rule s.params s.block = .ok (k, d)) :
    perform rule s = .next (afterCommand s (decRun s.params k) d) := by
  simp [perform, h]

/-- Everything the performance of a command can do: it answers a next state, refused or performed. -/
theorem perform_cases {rule : Params → Block → Performed} {s t : State} (h : perform rule s = .next t) :
    (∃ e, rule s.params s.block = .error e ∧ t = afterRefusal s e) ∨
    ∃ k d, rule s.params s.block = .ok (k, d) ∧ t = afterCommand s (decRun s.params k) d := by
  cases hr : rule s.params s.block with
  | error e =>
    rw [perform_of_error hr] at h
    cases h
    exact .inl ⟨e, rfl, rfl⟩
  | ok kd =>
    rw [perform_of_ok hr] at h
    cases h
    exact .inr ⟨kd.1, kd.2, rfl, rfl⟩

/-- The command's own rule. -/
def ruleOf : Instr → Params → Block → Performed
  | .nop => nopRule
  | .softReset => softResetRule
  | .regRead idx => regReadRule idx
  | .crcInit => crcInitRule
  | .crcByte b => crcByteRule b
  | .crcRead => crcReadRule
  | .rxPush b => rxPushRule b
  | .rxPop => rxPopRule
  | .stgPut b => stgPutRule b
  | .stgClear => stgClearRule
  | .encSend => encSendRule
  | .encDisplayText => encDisplayTextRule
  | .encBuzzerPlay c => encBuzzerPlayRule c
  | .encBuzzerQueue cycles half => encBuzzerQueueRule cycles half
  | .encBeep cycles half => encBeepRule cycles half
  | .txPull => txPullRule

/-- Every command is the performance of its rule. -/
theorem exec_eq_perform (i : Instr) (s : State) : exec i s = perform (ruleOf i) s := by
  cases i <;> rfl

/-- `tx_append` refuses exactly where the bytes do not fit (42_encoder.md R85). -/
theorem txAppend_of_full {p : Params} {k : Block} {q stg : List Byte} (h : p.txCap < k.txq.length + q.length) :
    txAppend p k q stg = .error .txFull := by
  simp [txAppend, h, raise]

/-- `tx_append` puts the bytes at the tail of TXQ where they fit (42_encoder.md R85). -/
theorem txAppend_of_room {p : Params} {k : Block} {q stg : List Byte} (h : k.txq.length + q.length ≤ p.txCap) :
    txAppend p k q stg = .ok ({ k with txq := k.txq ++ q, stg := stg }, .none) := by
  simp [txAppend, Nat.not_lt.mpr h, respond]

end Sys2Proof.Machine
end

