-- ==== Sys2Proof/Laws/PerInstr.lean ====
section
/-! SUPPORT. A statement about every command, one lemma per constructor: the fields of its encoded word are its opcode
and its operands, and the opcode map's row for that opcode builds the command back from them. -/

namespace Sys2Proof.Laws.EncodedFields

/-- The encoded word's fields, and what the row of the opcode map they select builds. -/
def Statement (i : Instr) : Prop :=
  opField (encode i) = opcodeOf i ∧ aField (encode i) = aOperand i ∧ hField (encode i) = hOperand i ∧
  wField (encode i) = wOperand i ∧
  (opcodeTable.find? (fun r => r.op == opcodeOf i)).map
      (fun r => r.build (aOperand i) (hOperand i) (wOperand i)) = some i

/-- The first four clauses hold of every packed word. -/
theorem of_row {i : Instr}
    (h : (opcodeTable.find? (fun r => r.op == opcodeOf i)).map
      (fun r => r.build (aOperand i) (hOperand i) (wOperand i)) = some i) : Statement i :=
  ⟨opField_packWord .., aField_packWord .., hField_packWord .., wField_packWord .., h⟩

theorem nop : Statement .nop := of_row rfl
theorem softReset : Statement .softReset := of_row rfl
theorem regRead (idx : Byte) : Statement (.regRead idx) := of_row rfl
theorem crcInit : Statement .crcInit := of_row rfl
theorem crcByte (b : Byte) : Statement (.crcByte b) := of_row rfl
theorem crcRead : Statement .crcRead := of_row rfl
theorem rxPush (b : Byte) : Statement (.rxPush b) := of_row rfl
theorem rxPop : Statement .rxPop := of_row rfl
theorem stgPut (b : Byte) : Statement (.stgPut b) := of_row rfl
theorem stgClear : Statement .stgClear := of_row rfl
theorem encSend : Statement .encSend := of_row rfl
theorem encDisplayText : Statement .encDisplayText := of_row rfl
theorem encBuzzerPlay (c : Byte) : Statement (.encBuzzerPlay c) := of_row rfl
theorem encBuzzerQueue (cycles : Word) (half : Half) : Statement (.encBuzzerQueue cycles half) := of_row rfl
theorem encBeep (cycles : Word) (half : Half) : Statement (.encBeep cycles half) := of_row rfl
theorem txPull : Statement .txPull := of_row rfl

end Sys2Proof.Laws.EncodedFields
end

