-- ==== Sys2Proof/Laws/Step.lean ====
section
/-! SUPPORT. What one transition of the machine does, said once: which of the two forms a word's step takes, and what
the meaning of a command answers. -/

namespace Sys2Proof.Machine

/-- A word that decodes is performed. -/
theorem step_of_decode_ok {s : State} {cw : CmdWord} {rest : List CmdWord} {i : Instr} (hp : s.port = cw :: rest)
    (h : decode cw = .ok i) : step s = exec i s := by
  simp [step, hp, h]

/-- A word that is no command is refused. -/
theorem step_of_decode_error {s : State} {cw : CmdWord} {rest : List CmdWord} {e : DecodeError}
    (hp : s.port = cw :: rest) (h : decode cw = .error e) : step s = .next (afterRefusal s (decodeStatus e)) := by
  simp [step, hp, h]

/-- Everything a command can do: it is refused by its rule, or its rule's block is left to the decoder's run. -/
theorem exec_cases {i : Instr} {s t : State} (h : exec i s = .next t) :
    (∃ e, ruleOf i s.params s.block = .error e ∧ t = afterRefusal s e) ∨
    ∃ k d, ruleOf i s.params s.block = .ok (k, d) ∧ t = afterCommand s (decRun s.params k) d := by
  rw [exec_eq_perform] at h
  exact perform_cases h

/-- A command whose rule refuses. -/
theorem exec_of_error {i : Instr} {s : State} {e : Status} (h : ruleOf i s.params s.block = .error e) :
    exec i s = .next (afterRefusal s e) := by
  rw [exec_eq_perform, perform_of_error h]

/-- A command whose rule responds. -/
theorem exec_of_ok {i : Instr} {s : State} {k : Block} {d : RespData}
    (h : ruleOf i s.params s.block = .ok (k, d)) : exec i s = .next (afterCommand s (decRun s.params k) d) := by
  rw [exec_eq_perform, perform_of_ok h]

/-- A command whose rule responds with a quiescent block: the decoder has nothing to do. -/
theorem exec_of_ok_quiescent {i : Instr} {s : State} {k : Block} {d : RespData} (hq : Quiescent s.params k)
    (h : ruleOf i s.params s.block = .ok (k, d)) : exec i s = .next (afterCommand s k d) := by
  rw [exec_of_ok h, decRun_of_quiescent hq]

/-- A run of the machine, one step at a time. -/
theorem core_run_succ {s t : State} (h : step s = .next t) (n : Nat) :
    Host.Core.run core (n + 1) s = Host.Core.run core n t := by
  have h' : core.step s = .next t := h
  simp [Host.Core.run, h']

end Sys2Proof.Machine
end

