-- ==== Sys2Proof/Tests/Slice0.lean ====
section
/-! SUPPORT. Tests, each a named theorem about one word or one step, with values of 95_test_vectors.md (its vector ids
stand in the comments); then, for every statement of Certificates/Slice0 that has hypotheses, values that meet them. -/

namespace Sys2Proof.Tests

open Sys2Proof Sys2Proof.Machine

-- One theorem after another: each evaluates a machine in the kernel, and many at once fill the memory.
set_option Elab.async false

/-- A machine in the reference configuration, with the block `k` and one word on its port. -/
def on (k : Block) (cw : CmdWord) : State := { block := k, params := Params.reference, port := [cw], responses := [] }

/-- The next state an outcome gives. -/
def nextOf : Host.Outcome State Fault Refusal → Option State
  | .next t => some t
  | .fault _ => none
  | .refused _ => none

/-- One step of `on k cw`. -/
def stepOn (k : Block) (cw : CmdWord) : Option State := nextOf (step (on k cw))

/-- That machine after its one word: the block `k`, the port empty, the response given. -/
def done (k : Block) (e : Status) (d : RespData := .none) : Option State :=
  some { block := k, params := Params.reference, port := [], responses := [⟨e, d⟩] }

/-- A block with all six elements away from reset, its decoder waiting. -/
def busy : Block :=
  { crcAcc := 0x1234, rxBuf := [0x07, 0x0C], fq := [[0x05, 0x10, 0x9E, 0x81, 0x7E]], crcErrCnt := 3, stg := [0x48],
    txq := [0x7E] }

/-- The frame of V-DEC-01. -/
def frameA : List Byte := [0x05, 0x10, 0x9E, 0x81, 0x7E]

/-- ButtonEvent pressed (V-DEC-05, X7). -/
def frameB : List Byte := [0x06, 0x0D, 0x01, 0x4E, 0x1B, 0x7E]

/-- ENC_BEEP 50, 500: BuzzerToneQueue, then BuzzerPlay (V-ENC-05, V-ENC-03). -/
def beepBytes : List Byte :=
  [0x0E, 0x0F, 0x08, 0x32, 0x00, 0x00, 0x00, 0xF4, 0x01, 0xF4, 0x01, 0xD8, 0xFD, 0x7E] ++
    [0x06, 0x0E, 0x01, 0x64, 0x73, 0x7E]

/-! ## Well-formedness: the one check of WellFormed.lean -/

theorem test_wellFormed_refuses_flag_above_1 : wellFormed (.encBuzzerPlay 2) = false := by decide
theorem test_wellFormed_refuses_high_bit : wellFormed (.encBuzzerPlay 0x80) = false := by decide
theorem test_wellFormed_accepts_flag : wellFormed (.encBuzzerPlay 0) = true ∧ wellFormed (.encBuzzerPlay 1) = true := by
  decide
/-- An ill-formed command's word is refused when it is decoded (V-ENC-22). -/
theorem test_illFormed_word_is_refused : decode (encode (.encBuzzerPlay 2)) = .error .rsvd := by decide

/-! ## Decoding: words written out from 30_encoding.md R38 and R39, one for each command -/

theorem test_decode_nop : decode 0x0000000000000000 = .ok .nop := by decide
theorem test_decode_softReset : decode 0x0000000000000001 = .ok .softReset := by decide
theorem test_decode_regRead : decode 0x0000000000000502 = .ok (.regRead 0x05) := by decide
theorem test_decode_crcInit : decode 0x0000000000000010 = .ok .crcInit := by decide
theorem test_decode_crcByte : decode 0x0000000000004111 = .ok (.crcByte 0x41) := by decide
theorem test_decode_crcRead : decode 0x0000000000000012 = .ok .crcRead := by decide
theorem test_decode_rxPush : decode 0x0000000000005520 = .ok (.rxPush 0x55) := by decide
theorem test_decode_rxPop : decode 0x0000000000000021 = .ok .rxPop := by decide
theorem test_decode_stgPut : decode 0x0000000000006930 = .ok (.stgPut 0x69) := by decide
theorem test_decode_stgClear : decode 0x0000000000000031 = .ok .stgClear := by decide
theorem test_decode_encSend : decode 0x0000000000000032 = .ok .encSend := by decide
theorem test_decode_encDisplayText : decode 0x0000000000000033 = .ok .encDisplayText := by decide
theorem test_decode_encBuzzerPlay : decode 0x0000000000000134 = .ok (.encBuzzerPlay 1) := by decide
theorem test_decode_encBuzzerQueue : decode 0x0000003201F40035 = .ok (.encBuzzerQueue 50 500) := by decide
theorem test_decode_encBeep : decode 0x0000001404E20036 = .ok (.encBeep 20 1250) := by decide
theorem test_decode_txPull : decode 0x0000000000000040 = .ok .txPull := by decide
/-- V-ENC-09: every bit of the two operands. -/
theorem test_decode_all_operand_bits : decode 0xFFFFFFFFFFFF0035 = .ok (.encBuzzerQueue 0xFFFFFFFF 0xFFFF) := by decide
/-- V-CTL-03, 04, 12, 13. -/
theorem test_decode_unassigned :
    [0x03, 0xFFFFFFFFFFFFFFFF, 0x41, 0x137].map decode = List.replicate 4 (.error .badOp) := by decide
/-- V-CTL-02, V-CTL-06, V-CRC-25, V-CRC-26, V-DEC-24, V-ENC-22, V-ENC-23. -/
theorem test_decode_reserved :
    [0x100, 0x100000902, 0x10011, 0x112, 0x10120, 0x234, 0x3201F40135].map decode = List.replicate 7 (.error .rsvd) := by
  decide
/-- 20_memory.md R27: the word of ENC_BEEP 50, 500, least significant byte first. -/
theorem test_wordBytes : wordBytes 0x0000003201F40036 = [0x36, 0x00, 0xF4, 0x01, 0x32, 0x00, 0x00, 0x00] := by decide
/-- Seven bytes are no word; of nine, the ninth is left. -/
theorem test_takeWord : takeWord [0x36, 0, 0xF4, 1, 0x32, 0, 0] = none ∧
    takeWord [0x36, 0, 0xF4, 1, 0x32, 0, 0, 0, 0x99] = some (0x0000003201F40036, [0x99]) := by decide
theorem test_decodeTableWord : decodeTableWord 64 0x0000003201F40036 = some (.encBeep 50 500) := by decide
theorem test_decodeTableWord_short : decodeTableWord 16 0x6930 = some (.stgPut 0x69) := by decide
theorem test_withFetchWord : step (State.reset.withFetchWord 64 0x4111) = exec (.crcByte 0x41)
    (State.reset.withFetchWord 64 0x4111) := by rfl

/-! ## The CRC (V-CRC) -/

/-- V-CRC-01 to 12. -/
theorem test_crc16 :
    ([[], [0x00], [0xFF], [0x7E], [0x01], [0x80], [0x41], [0x31, 0x32, 0x33, 0x34, 0x35, 0x36, 0x37, 0x38, 0x39],
      [0x05, 0x10], [0x06, 0x0D, 0x01], [0x00, 0x00], [0xFF, 0xFF]] : List (List Byte)).map crc16 =
    [0xFFFF, 0x0F87, 0x00FF, 0x957E, 0x1E0E, 0x8B8F, 0x5C0A, 0x6F91, 0x9E81, 0x4E1B, 0xF0B8, 0x0000] := by decide
/-- V-CRC-13, V-CRC-14. -/
theorem test_crc16_long : crc16 ((List.range 256).map (BitVec.ofNat 8)) = 0xCFC3 ∧
    crc16 (List.replicate 128 0) = 0x500F := by decide +kernel
/-- V-CRC-15 to 20. -/
theorem test_crcStep : crcStep 0xFFFF 0x00 = 0x0F87 ∧ crcStep 0x0000 0x00 = 0x0000 ∧ crcStep 0x0000 0xFF = 0x0F78 ∧
    crcStep 0x1234 0x56 = 0x4006 ∧ crcStep 0xFFFF 0x7E = 0x957E ∧ crcStep 0x8408 0x01 = 0x9D45 := by decide
/-- V-CRC-21. -/
theorem test_crcInit : stepOn busy 0x10 = done { busy with crcAcc := 0xFFFF } .ok := by decide
/-- V-CRC-22. -/
theorem test_crcByte : stepOn Block.reset 0x11 = done { Block.reset with crcAcc := 0x0F87 } .ok := by decide
/-- V-CRC-25. -/
theorem test_crcByte_reserved : stepOn busy 0x10011 = done busy .rsvd := by decide
/-- V-CRC-23. -/
theorem test_crcRead : stepOn { busy with crcAcc := 0x0F87 } 0x12 =
    done { busy with crcAcc := 0x0F87 } .ok (.half 0x0F87) := by decide

/-! ## Control (V-CTL) -/

/-- V-CTL-01. -/
theorem test_nop : stepOn busy 0x00 = done busy .ok := by decide
/-- V-CTL-02. -/
theorem test_nop_reserved : stepOn busy 0x100 = done busy .rsvd := by decide
/-- V-CTL-04: E_BADOP wins over reserved bits. -/
theorem test_badOp : stepOn busy 0xFFFFFFFFFFFFFFFF = done busy .badOp := by decide
/-- V-CTL-10. -/
theorem test_softReset : stepOn busy 0x01 =
    done { crcAcc := 0xFFFF, rxBuf := [], fq := [], crcErrCnt := 0, stg := [], txq := [] } .ok := by decide
/-- The registers of V-CTL-08, V-CTL-09 and V-CTL-11 at the block `busy`. -/
theorem test_regRead : (List.range 9).map (fun n => registerView Params.reference busy (BitVec.ofNat 8 n)) =
    [some 2, some 1, some 5, some 1, some 1, some 3, some 256, some 4, some 256] := by decide
/-- V-CTL-05. -/
theorem test_regRead_badReg : stepOn Block.reset 0x902 = done Block.reset .badReg := by decide

/-! ## The decoder (V-DEC) -/

/-- V-DEC-01, the last byte. -/
theorem test_rxPush_emits : stepOn { Block.reset with rxBuf := [0x05, 0x10, 0x9E, 0x81] } 0x7E20 =
    done { Block.reset with fq := [frameA] } .ok := by decide
/-- V-DEC-03, the fifth and sixth bytes: DROP_BADLEN of 00, then QUIESCENT_SHORT. -/
theorem test_dropBadLen : stepOn { Block.reset with rxBuf := [0x00, 0x04, 0x81, 0xFF] } 0x620 =
    done { Block.reset with rxBuf := [0x04, 0x81, 0xFF, 0x06] } .ok := by decide
/-- V-DEC-04: DROP_CRC, then a wait. -/
theorem test_dropCrc : decRun Params.reference { Block.reset with rxBuf := [0x06, 0x0C, 0x01, 0x4E, 0x1B, 0x7E] } =
    { Block.reset with rxBuf := [0x0C, 0x01, 0x4E, 0x1B, 0x7E], crcErrCnt := 1 } := by decide
/-- V-DEC-05: DROP_NOSYNC, then a wait. -/
theorem test_dropNoSync :
    decRun Params.reference { Block.reset with rxBuf := [0x06, 0x0D, 0x01, 0x4E, 0x1B, 0x00] ++ frameB } =
      { Block.reset with rxBuf := [0x0D, 0x01, 0x4E, 0x1B, 0x00] ++ frameB } := by decide
/-- V-DEC-06b: the corrupted frame, the good one and 69 SYNC bytes. -/
theorem test_resynchronization :
    decRun Params.reference
      { Block.reset with rxBuf := [0x06, 0x0D, 0x00, 0x4E, 0x1B, 0x7E] ++ frameB ++ List.replicate 69 0x7E } =
      { Block.reset with rxBuf := List.replicate 4 0x7E, fq := [frameB], crcErrCnt := 4 } := by decide +kernel
/-- The machine of V-DEC-10: a held frame, and another behind it, with `FQ_DEPTH = 1`. -/
def heldState : State :=
  { block := { Block.reset with rxBuf := frameB ++ [0x07, 0x0C, 0x03, 0x00, 0xDB, 0xCB, 0x7E], fq := [frameA] }
    params := ⟨256, 1, 256⟩, port := [], responses := [] }
/-- V-DEC-10b: the pop emits the held frame. -/
theorem test_rxPop_emits_held : nextOf (exec .rxPop heldState) =
    some { heldState with
      block := { Block.reset with rxBuf := [0x07, 0x0C, 0x03, 0x00, 0xDB, 0xCB, 0x7E], fq := [frameB] }
      responses := [⟨.ok, .frame frameA⟩] } := by decide +kernel
/-- V-DEC-18: the longest frame, whole. -/
theorem test_longest_frame : ValidFrame ([0x80, 0x10] ++ List.replicate 123 0xAA ++ [0x84, 0x12, 0x7E]) := by
  decide +kernel
/-- V-DEC-20. -/
theorem test_rxPop_empty : stepOn Block.reset 0x21 = done Block.reset .fqEmpty := by decide
/-- The block of V-DEC-21: a held frame at the head of a full RXBUF. -/
def heldFull : Block := { Block.reset with rxBuf := frameB ++ List.replicate 122 0, fq := [frameA] }
/-- The machine of V-DEC-21. -/
def heldFullState : State := { block := heldFull, params := ⟨128, 1, 128⟩, port := [], responses := [] }
/-- V-DEC-21. -/
theorem test_rxPush_full : nextOf (exec (.rxPush 0x55) heldFullState) =
    some { heldFullState with responses := [⟨.rxFull, .none⟩] } := by decide +kernel

/-! ## The encoder and the transmit port (V-ENC) -/

/-- V-ENC-01. -/
theorem test_encDisplayText : stepOn { Block.reset with stg := [0x48, 0x69] } 0x33 =
    done { Block.reset with txq := [0x08, 0x0A, 0x02, 0x48, 0x69, 0x75, 0xDF, 0x7E] } .ok := by decide
/-- V-ENC-19. -/
theorem test_encDisplayText_badLength : stepOn { Block.reset with stg := List.replicate 120 0x20 } 0x33 =
    done { Block.reset with stg := List.replicate 120 0x20 } .badLength := by decide +kernel
/-- V-ENC-16. -/
theorem test_encSend_longest : stepOn { Block.reset with stg := List.replicate 124 0x10 } 0x32 =
    done { Block.reset with txq := 0x80 :: (List.replicate 124 0x10 ++ [0xFF, 0x73, 0x7E]) } .ok := by decide +kernel
/-- V-ENC-26: E_LEN before E_TXFULL. -/
theorem test_encSend_badLength_first : stepOn { Block.reset with txq := List.replicate 256 0 } 0x32 =
    done { Block.reset with txq := List.replicate 256 0 } .badLength := by decide +kernel
/-- V-ENC-03; STG is kept. -/
theorem test_encBuzzerPlay : stepOn busy 0x134 =
    done { busy with txq := [0x7E, 0x06, 0x0E, 0x01, 0x64, 0x73, 0x7E] } .ok := by decide
/-- V-ENC-22. -/
theorem test_encBuzzerPlay_reserved : stepOn Block.reset 0x234 = done Block.reset .rsvd := by decide
/-- V-ENC-07. -/
theorem test_encBuzzerQueue : stepOn Block.reset 0x0000001404E20035 =
    done { Block.reset with
      txq := [0x0E, 0x0F, 0x08, 0x14, 0x00, 0x00, 0x00, 0xE2, 0x04, 0xE2, 0x04, 0x54, 0xD6, 0x7E] } .ok := by decide
/-- V-ENC-09. -/
theorem test_encBuzzerQueue_all_ones : stepOn Block.reset 0xFFFFFFFFFFFF0035 =
    done { Block.reset with
      txq := [0x0E, 0x0F, 0x08, 0xFF, 0xFF, 0xFF, 0xFF, 0xFF, 0xFF, 0xFF, 0xFF, 0xEC, 0x85, 0x7E] } .ok := by decide
/-- V-ENC-25: exactly 20 bytes free. -/
theorem test_encBeep : stepOn { Block.reset with txq := List.replicate 236 0 } 0x0000003201F40036 =
    done { Block.reset with txq := List.replicate 236 0 ++ beepBytes } .ok := by decide +kernel
/-- V-ENC-24: 19 bytes free. -/
theorem test_encBeep_full : stepOn { Block.reset with txq := List.replicate 237 0 } 0x0000003201F40036 =
    done { Block.reset with txq := List.replicate 237 0 } .txFull := by decide +kernel
/-- V-ENC-29. -/
theorem test_stgPut : stepOn busy 0x6930 = done { busy with stg := [0x48, 0x69] } .ok := by decide
/-- V-ENC-21. -/
theorem test_stgPut_full : stepOn { Block.reset with stg := List.replicate 124 0x10 } 0x130 =
    done { Block.reset with stg := List.replicate 124 0x10 } .stgFull := by decide +kernel
/-- V-ENC-30. -/
theorem test_stgClear : stepOn busy 0x31 = done { busy with stg := [] } .ok := by decide
/-- V-ENC-28. -/
theorem test_txPull : stepOn { busy with txq := [0x05, 0x10] } 0x40 =
    done { busy with txq := [0x10] } .ok (.byte 0x05) := by decide
/-- V-ENC-27. -/
theorem test_txPull_empty : stepOn Block.reset 0x40 = done Block.reset .txEmpty := by decide
/-- The frames of X6: KnobEvent at positions 0, 3 and 1; the signed position -1 of V-ENC-11. -/
theorem test_knobEvent_frames :
    ([0, 3, 1, 0xFFFF] : List Half).map (fun h => buildFrame (messageBody (.knobEvent h))) =
      [[0x07, 0x0C, 0x00, 0x00, 0xF1, 0xA3, 0x7E], [0x07, 0x0C, 0x03, 0x00, 0xDB, 0xCB, 0x7E],
       [0x07, 0x0C, 0x01, 0x00, 0xE8, 0x7B, 0x7E], [0x07, 0x0C, 0xFF, 0xFF, 0x01, 0x1B, 0x7E]] ∧
      knobPosition 0xFFFF = -1 := by decide +kernel
/-- X7, V-ENC-13. -/
theorem test_event_frames : buildFrame (messageBody (.buttonEvent 1)) = frameB ∧
    buildFrame (messageBody (.buttonEvent 0)) = [0x06, 0x0D, 0x00, 0x5F, 0x92, 0x7E] ∧
    buildFrame (messageBody (.buzzerEvent 0)) = [0x06, 0x10, 0x00, 0x7A, 0x7B, 0x7E] := by decide
/-- The byte forms of V-CTL-09, V-CRC-23, V-ENC-28 and V-DEC-20. -/
theorem test_responseBytes : responseBytes ⟨.ok, .word 5⟩ = [0x00, 0x05, 0x00, 0x00, 0x00] ∧
    responseBytes ⟨.ok, .half 0x0F87⟩ = [0x00, 0x87, 0x0F] ∧ responseBytes ⟨.ok, .byte 5⟩ = [0x00, 0x05] ∧
    responseBytes ⟨.fqEmpty, .none⟩ = [0x05] := by decide

/-! ## Assembler and host-side tones -/

/-- P4 line 1, and a line of P2 with a string. -/
theorem test_assembleLine :
    assembleLine "ENC_BEEP 50, 0x1F4 ; a tone".toList = some [.encBeep 50 500] ∧
    assembleLine "DISPLAY_TEXT \"Hi\"".toList =
      some [.stgClear, .stgPut 0x48, .stgPut 0x69, .encDisplayText] := by decide +kernel
/-- What the syntax does not admit. -/
theorem test_assembleLine_refuses :
    ["ENC_BUZZER_PLAY 2".toList, "RX_PUSH 256".toList, "SEND \"a\"b\"".toList, "NOP 1".toList, "JUMP".toList].map
      assembleLine = List.replicate 5 none := by decide +kernel
/-- V-ENC-31, 32, 33. -/
theorem test_toneOperands : toneOperands exactArith 1000 (1 / 20) = .ok (50, 500) ∧
    toneOperands exactArith 400 (1 / 20) = .ok (20, 1250) ∧
    toneOperands exactArith 440 (1 / 2) = .ok (220, 1136) := by decide +kernel
/-- V-ENC-31 and 32 in binary64: "both settings of `HOST_ARITH` agree there". -/
theorem test_toneOperands_binary64 : toneOperands binary64Arith 1000 (1 / 20) = .ok (50, 500) ∧
    toneOperands binary64Arith 400 (1 / 20) = .ok (20, 1250) := by decide +kernel
/-- 2^(-1075) is held as 0 and refused, as are 2^(-1074), whose quotient is not finite, and 2^1024, which is not held. -/
theorem test_toneOperands_binary64_ends :
    toneOperands binary64Arith (powerOfTwo (-1075)) 1 = .error .frequencyNotPositive ∧
    toneOperands binary64Arith (powerOfTwo (-1074)) 1 = .error .notFinite ∧
    toneOperands binary64Arith (powerOfTwo 1024) (powerOfTwo (-1000)) = .error .notFinite := by decide +kernel
/-- V-ENC-34, 35, 36. -/
theorem test_toneOperands_limits : toneOperands exactArith 3 (1 / 10) = .error .halfPeriodTooLarge ∧
    toneOperands exactArith (77 / 10) 1 = .ok (7, 64935) ∧
    toneOperands exactArith 500001 (1 / 1000) = .ok (500, 0) := by decide +kernel

/-! ## Values that meet the hypotheses of the statements of Certificates/Slice0, one theorem for each statement -/

/-- An outcome whose next state passes a check is a next state that passes it. -/
theorem next_of {o : Host.Outcome State Fault Refusal} {P : State → Prop} [DecidablePred P]
    (h : (nextOf o).any (fun t => decide (P t)) = true) : ∃ t : State, o = .next t ∧ P t := by
  cases o with
  | next t => exact ⟨t, rfl, by simpa [nextOf] using h⟩
  | fault _ => cases h
  | refused _ => cases h

/-- An outcome that is a next state. -/
theorem some_next {o : Host.Outcome State Fault Refusal} (h : (nextOf o).isSome = true) : ∃ t : State, o = .next t := by
  cases o with
  | next t => exact ⟨t, rfl⟩
  | fault _ => cases h
  | refused _ => cases h

/-- Each word of a list has the property. -/
abbrev Each (words : List CmdWord) (P : CmdWord → Prop) [DecidablePred P] : Prop :=
  words.all (fun cw => decide (P cw)) = true

/-- A word of the opcode `op` on the port, and the fields of a command without operands. -/
abbrev Bare (cw : CmdWord) (op : Byte) : Prop :=
  (on busy cw).port = cw :: [] ∧ opField cw = op ∧ (aField cw = 0 ∧ hField cw = 0 ∧ wField cw = 0)

/-- The same word with a bit of a field set that such a command does not use. -/
abbrev BareReserved (cw : CmdWord) (op : Byte) : Prop :=
  (on busy cw).port = cw :: [] ∧ opField cw = op ∧ ¬(aField cw = 0 ∧ hField cw = 0 ∧ wField cw = 0)

/-- A word of the opcode `op` with a byte operand only. -/
abbrev WithByte (cw : CmdWord) (op : Byte) : Prop :=
  (on busy cw).port = cw :: [] ∧ opField cw = op ∧ (hField cw = 0 ∧ wField cw = 0)

/-- The same word with a bit of H or W set. -/
abbrev WithByteReserved (cw : CmdWord) (op : Byte) : Prop :=
  (on busy cw).port = cw :: [] ∧ opField cw = op ∧ ¬(hField cw = 0 ∧ wField cw = 0)

/-- A machine in the reference configuration at a command boundary, nothing on its port. -/
def at_ (k : Block) : State := { block := k, params := Params.reference, port := [], responses := [] }

/-- A decoder that is quiescent in each of its three ways: short, waiting, holding. -/
theorem witness_Quiescent : Quiescent Params.reference Block.reset ∧ Quiescent Params.reference busy ∧
    decStep Params.reference { busy with rxBuf := [0x06, 0x0D, 0x01, 0x4E, 0x1B] } = .wait ∧
    decStep heldState.params heldState.block = .hold ∧ Quiescent heldState.params heldState.block := by decide +kernel

theorem witness_NopAnswersOkAndChangesNothing : Bare 0x00 0x00 ∧ BareReserved 0x100 0x00 ∧
    BareReserved 0x8000000000000000 0x00 ∧ Quiescent (at_ busy).params (at_ busy).block := by decide +kernel

theorem witness_SoftResetRestoresEveryElement : Bare 0x01 0x01 ∧ BareReserved 0x101 0x01 ∧
    BareReserved 0x8000000000000001 0x01 := by decide +kernel

theorem witness_RegReadAnswersTheRegisterView : WithByte 0x02 0x02 ∧ WithByte 0xFF02 0x02 ∧
    WithByteReserved 0x10002 0x02 ∧ WithByteReserved 0x8000000000000002 0x02 ∧
    (Quiescent (at_ busy).params (at_ busy).block ∧
      (((0 : Byte).toNat, 2) ∈ [(0, (at_ busy).block.rxBuf.length), (8, (at_ busy).params.txCap)] ∧ 2 < 2 ^ 32) ∧
      ((8 : Byte).toNat, 256) ∈ [(7, (at_ busy).params.fqDepth), (8, (at_ busy).params.txCap)] ∧ 256 < 2 ^ 32) ∧
    (Quiescent (at_ Block.reset).params (at_ Block.reset).block ∧ (at_ Block.reset).block.fq = []) ∧
    (at_ busy).block.fq = (0x05 :: [0x10, 0x9E, 0x81, 0x7E]) :: [] ∧ (0 : Byte) ≤ 8 ∧ (8 : Byte) ≤ 8 ∧
    (8 : Byte) < 9 ∧ (8 : Byte) < 0xFF ∧ (0 : Byte) ≤ 5 ∧ (5 : Byte) ≤ 5 := by decide +kernel

theorem witness_CrcInitStartsTheAccumulator : Bare 0x10 0x10 ∧ BareReserved 0x110 0x10 ∧
    BareReserved 0x8000000000000010 0x10 ∧ Quiescent (at_ busy).params (at_ busy).block := by decide +kernel

theorem witness_CrcByteFeedsTheAccumulator : WithByte 0x11 0x11 ∧ WithByte 0xFF11 0x11 ∧
    WithByteReserved 0x10011 0x11 ∧ WithByteReserved 0x8000000000000011 0x11 ∧
    Quiescent (at_ busy).params (at_ busy).block := by decide +kernel

theorem witness_CrcReadAnswersTheAccumulator : Bare 0x12 0x12 ∧ BareReserved 0x112 0x12 ∧
    BareReserved 0x8000000000000012 0x12 ∧ Quiescent (at_ busy).params (at_ busy).block := by decide +kernel

/-- The machine of V-DEC-21 is at a command boundary. -/
theorem heldFull_invariant : Invariant heldFullState :=
  ⟨by decide +kernel, by decide +kernel, by decide +kernel, by decide +kernel, by decide +kernel, by decide +kernel,
    by decide +kernel⟩

/-- The machine of V-DEC-10 is at a command boundary. -/
theorem held_invariant : Invariant heldState :=
  ⟨by decide +kernel, by decide +kernel, by decide +kernel, by decide +kernel, by decide +kernel, by decide +kernel,
    by decide +kernel⟩

/-- So is one with all elements in use. -/
theorem busy_invariant : Invariant (at_ busy) :=
  ⟨by decide +kernel, by decide +kernel, by decide +kernel, by decide +kernel, by decide +kernel, by decide +kernel, by decide +kernel⟩

theorem witness_RxPushAppendsThenDecodes : (WithByte 0x20 0x20 ∧ WithByte 0xFF20 0x20 ∧
    WithByteReserved 0x10120 0x20 ∧ WithByteReserved 0x8000000000000020 0x20) ∧
    ({ Block.reset with rxBuf := List.replicate 255 0x06 } : Block).rxBuf.length ≠ Params.reference.bufCap ∧
    Invariant heldFullState ∧ heldFullState.block.rxBuf.length = heldFullState.params.bufCap :=
  ⟨by decide +kernel, by decide +kernel, heldFull_invariant, by decide +kernel⟩

theorem witness_RxPopTakesTheOldestFrame : (Bare 0x21 0x21 ∧ BareReserved 0x121 0x21 ∧
    BareReserved 0x8000000000000021 0x21) ∧ Invariant (at_ busy) ∧ (at_ busy).block.fq = frameA :: [] ∧
    (at_ Block.reset).block.fq = [] := ⟨by decide +kernel, busy_invariant, by decide +kernel, by decide +kernel⟩

theorem witness_StgPutAppendsToStaging : WithByte 0x30 0x30 ∧ WithByte 0xFF30 0x30 ∧
    WithByteReserved 0x10030 0x30 ∧ WithByteReserved 0x8000000000000030 0x30 ∧
    (Quiescent Params.reference { busy with stg := List.replicate 123 0 } ∧
      ({ busy with stg := List.replicate 123 0 } : Block).stg.length ≠ 124) ∧
    ({ busy with stg := List.replicate 124 0 } : Block).stg.length = 124 := by decide +kernel

theorem witness_StgClearEmptiesStaging : Bare 0x31 0x31 ∧ BareReserved 0x131 0x31 ∧
    BareReserved 0x8000000000000031 0x31 ∧ Quiescent (at_ busy).params (at_ busy).block := by decide +kernel

/-- The hypotheses under which ENC_SEND is performed, of the numbers of bytes staged and queued. -/
abbrev Sendable (staged queued : Nat) : Prop :=
  Quiescent Params.reference { busy with stg := List.replicate staged 0, txq := List.replicate queued 0 } ∧
  1 ≤ staged ∧ staged ≤ 124 ∧ staged ≠ 122 ∧ queued + (staged + 4) ≤ Params.reference.txCap

/-- The shortest and the longest body, those beside the length 126, and a TXQ with exactly the room needed; a body that
is refused at each end and at 122 bytes; one byte of room too little. -/
theorem witness_EncSendTransmitsTheStagedBody : (Bare 0x32 0x32 ∧ BareReserved 0x132 0x32 ∧
    BareReserved 0x8000000000000032 0x32) ∧
    Sendable 1 251 ∧ Sendable 121 0 ∧ Sendable 123 0 ∧ Sendable 124 128 ∧
    (∀ n ∈ [0, 122, 125], n = 0 ∨ n = 122 ∨ 124 < n) ∧
    (1 ≤ 124 ∧ 124 ≤ 124 ∧ 124 ≠ 122 ∧ Params.reference.txCap < 129 + (124 + 4)) := by decide +kernel

/-- The hypotheses under which ENC_DISPLAY_TEXT is performed. -/
abbrev Showable (staged queued : Nat) : Prop :=
  Quiescent Params.reference { busy with stg := List.replicate staged 0, txq := List.replicate queued 0 } ∧
  staged ≤ 122 ∧ staged ≠ 120 ∧ queued + (staged + 6) ≤ Params.reference.txCap

theorem witness_EncDisplayTextTransmitsTheStagedText : (Bare 0x33 0x33 ∧ BareReserved 0x133 0x33 ∧
    BareReserved 0x8000000000000033 0x33) ∧
    Showable 0 250 ∧ Showable 119 0 ∧ Showable 121 0 ∧ Showable 122 128 ∧
    (∀ n ∈ [120, 123, 124], 122 < n ∨ n = 120) ∧
    (122 ≤ 122 ∧ 122 ≠ 120 ∧ Params.reference.txCap < 129 + (122 + 6)) := by decide +kernel

theorem witness_EncBuzzerPlayTransmitsItsFrame :
    (Each [0x34, 0x134] fun cw => (on busy cw).port = cw :: [] ∧ opField cw = 0x34 ∧
      (aField cw ≤ 1 ∧ hField cw = 0 ∧ wField cw = 0)) ∧
    (Each [0x234, 0x10034, 0x8000000000000034] fun cw => (on busy cw).port = cw :: [] ∧
      opField cw = 0x34 ∧ ¬(aField cw ≤ 1 ∧ hField cw = 0 ∧ wField cw = 0)) ∧
    (Quiescent Params.reference { busy with txq := List.replicate 250 0 } ∧ (1 : Byte) ≤ 1 ∧
      (List.replicate 250 (0 : Byte)).length + 6 ≤ Params.reference.txCap) ∧
    Params.reference.txCap < (List.replicate 251 (0 : Byte)).length + 6 ∧ (1 : Byte) < 2 ∧ (1 : Byte) < 0xFF := by
  decide +kernel

theorem witness_EncBuzzerQueueTransmitsItsFrame :
    ((on busy 0xFFFFFFFFFFFF0035).port = 0xFFFFFFFFFFFF0035 :: [] ∧ opField 0xFFFFFFFFFFFF0035 = 0x35 ∧
      aField 0xFFFFFFFFFFFF0035 = 0) ∧
    (opField 0x3201F40135 = 0x35 ∧ aField 0x3201F40135 ≠ 0) ∧
    (Quiescent Params.reference { busy with txq := List.replicate 242 0 } ∧
      (List.replicate 242 (0 : Byte)).length + 14 ≤ Params.reference.txCap) ∧
    Params.reference.txCap < (List.replicate 243 (0 : Byte)).length + 14 := by decide +kernel

theorem witness_EncBeepTransmitsBothFrames :
    ((on busy 0xFFFFFFFFFFFF0036).port = 0xFFFFFFFFFFFF0036 :: [] ∧ opField 0xFFFFFFFFFFFF0036 = 0x36 ∧
      aField 0xFFFFFFFFFFFF0036 = 0) ∧
    (opField 0x3201F48036 = 0x36 ∧ aField 0x3201F48036 ≠ 0) ∧
    (Quiescent Params.reference { busy with txq := List.replicate 236 0 } ∧
      (List.replicate 236 (0 : Byte)).length + 20 ≤ Params.reference.txCap) ∧
    Params.reference.txCap < (List.replicate 237 (0 : Byte)).length + 20 := by decide +kernel

theorem witness_TxPullTakesTheNextByte : Bare 0x40 0x40 ∧ BareReserved 0x140 0x40 ∧
    BareReserved 0x8000000000000040 0x40 ∧
    (Quiescent (at_ busy).params (at_ busy).block ∧ (at_ busy).block.txq = 0x7E :: []) ∧
    (at_ Block.reset).block.txq = [] := by decide +kernel

theorem witness_StepRunsTheDecodedCommand :
    (on busy 0x4111).port = 0x4111 :: [] ∧ decode 0x4111 = .ok (.crcByte 0x41) := by decide +kernel

theorem witness_StepOnAnEmptyPortIsIdle : (at_ busy).port = [] := rfl

theorem witness_EveryWordHasOneNextStateAndOneResponse :
    (on busy 0xFFFFFFFFFFFFFFFF).port = 0xFFFFFFFFFFFFFFFF :: [] := rfl

/-- The two ends of each unassigned range. -/
theorem witness_UnassignedOpcodeAnswersBadOp :
    Each [0x03, 0x0F, 0x13, 0x1F, 0x22, 0x2F, 0x37, 0x3F, 0x41, 0xFFFFFFFFFFFFFFFF] fun cw =>
      (on busy cw).port = cw :: [] ∧
      ((0x03 ≤ opField cw ∧ opField cw ≤ 0x0F) ∨ (0x13 ≤ opField cw ∧ opField cw ≤ 0x1F) ∨
       (0x22 ≤ opField cw ∧ opField cw ≤ 0x2F) ∨ (0x37 ≤ opField cw ∧ opField cw ≤ 0x3F) ∨ 0x41 ≤ opField cw) := by
  decide +kernel

/-- A word of each group with its lowest reserved bit set, and one of each group with none. -/
theorem witness_ReservedFieldAnswersRsvd :
    (Each [0x100, 0x10002, 0x234, 0x135, 0x8000000000000040] fun cw =>
      (on busy cw).port = cw :: [] ∧ ReservedFieldSet cw) ∧
    (Each [0x00, 0xFF02, 0x134, 0xFFFFFFFFFFFF0036] fun cw => opField cw ∈ assignedOpcodes ∧ ¬ReservedFieldSet cw) := by
  decide +kernel

/-- V-ENC-26: E_LEN and E_TXFULL both apply, and E_LEN is reported. -/
theorem witness_ReportedStatusIsTheFirstThatApplies :
    (∃ t : State, step (on { Block.reset with txq := List.replicate 256 0 } 0x32) = .next t ∧
      t.responses = [] ++ [⟨.badLength, .none⟩]) ∧
    StatusCause Params.reference { Block.reset with txq := List.replicate 256 0 } 0x32 .badLength ∧
    StatusCause Params.reference { Block.reset with txq := List.replicate 256 0 } 0x32 .txFull :=
  ⟨next_of (P := fun t => t.responses = [] ++ [⟨.badLength, .none⟩]) (by decide +kernel),
    .inl ⟨by decide +kernel, .inl (by decide +kernel)⟩, .inl ⟨by decide +kernel, by decide +kernel⟩⟩

/-- A refused word (V-ENC-27) and a performed one (V-ENC-28). -/
theorem witness_RefusedWordChangesNoElement :
    (∃ t : State, step (on Block.reset 0x40) = .next t ∧ t.responses = [] ++ [⟨.txEmpty, .none⟩]) ∧
    ∃ t : State, step (on busy 0x40) = .next t ∧ t.responses = [] ++ [⟨.ok, .byte 0x7E⟩] :=
  ⟨next_of (by decide +kernel), next_of (by decide +kernel)⟩

theorem witness_RunIsTheFoldOfItsWords :
    ({ at_ busy with port := [0x10, 0x4111, 0x12] } : State).port = [0x10, 0x4111] ++ [0x12] := rfl

theorem witness_DecodeOfEncodedCommand : wellFormed (.encBuzzerPlay 1) = true ∧ wellFormed (.encBuzzerPlay 2) = false ∧
    wellFormed (.encBeep 0xFFFFFFFF 0xFFFF) = true := by decide +kernel

theorem witness_EncodeOfDecodedWord : decode 0x134 = .ok (.encBuzzerPlay 1) ∧
    decode 0xFFFFFFFFFFFF0036 = .ok (.encBeep 0xFFFFFFFF 0xFFFF) := by decide +kernel

theorem witness_CommandWordTravelsLowByteFirst : 0 < 8 ∧ 7 < 8 := by decide

theorem witness_ResetMeetsTheInvariant : Params.reference.Ok ∧ Params.Ok ⟨128, 1, 128⟩ := by decide +kernel

theorem witness_EveryStepKeepsTheInvariant : Invariant (at_ busy) ∧ Invariant heldFullState ∧
    (∃ t : State, step (on busy 0x21) = .next t) ∧ ∃ t : State, step { heldFullState with port := [0x21] } = .next t :=
  ⟨busy_invariant, heldFull_invariant, some_next (by decide +kernel), some_next (by decide +kernel)⟩

theorem witness_IdempotentCommandsRepeat : Quiescent (at_ busy).params (at_ busy).block ∧
    ∀ i ∈ [Instr.nop, .regRead 8, .crcRead, .crcInit, .stgClear, .softReset],
      i = .nop ∨ (∃ idx, i = .regRead idx) ∨ i = .crcRead ∨ i = .crcInit ∨ i = .stgClear ∨ i = .softReset := by
  refine ⟨by decide +kernel, ?_⟩
  simp

/-- Each of the four groups of elements is changed by some command. -/
theorem witness_ElementsAreWrittenOnlyByTheirCommands : Quiescent (at_ busy).params (at_ busy).block ∧
    (∃ t : State, exec .crcInit (at_ busy) = .next t ∧ t.block.crcAcc ≠ busy.crcAcc) ∧
    (∃ t : State, exec .rxPop (at_ busy) = .next t ∧ t.block.fq ≠ busy.fq) ∧
    (∃ t : State, exec .stgClear (at_ busy) = .next t ∧ t.block.stg ≠ busy.stg) ∧
    ∃ t : State, exec .txPull (at_ busy) = .next t ∧ t.block.txq ≠ busy.txq :=
  ⟨by decide +kernel, next_of (by decide +kernel), next_of (by decide +kernel), next_of (by decide +kernel),
    next_of (by decide +kernel)⟩

theorem witness_TxqGainsOnlyWholeFrames : ∃ t : State, step (on busy 0x0000003201F40036) = .next t ∧
    t.block.txq = busy.txq ++ [beepBytes.take 14, beepBytes.drop 14].flatten := 
  next_of (by decide +kernel)

/-! ### The CRC and the decoder -/

theorem witness_CrcUnitComputesTheCrcOfTheFedBytes :
    (∀ i ∈ [Instr.crcByte 0x05, .rxPush 0x05, .crcByte 0x10, .crcRead], i ≠ .crcInit ∧ i ≠ .softReset) ∧
    fedBytes [.crcByte 0x05, .rxPush 0x05, .crcByte 0x10, .crcRead] = [0x05, 0x10] := by decide +kernel

theorem witness_DecoderLeavesAShortBuffer :
    ({ Block.reset with rxBuf := [0x7E, 0x7E, 0x7E, 0x7E] } : Block).rxBuf.length < 5 := by decide +kernel

theorem witness_DecoderDropsASyncSeparator :
    ({ Block.reset with rxBuf := 0x7E :: frameA } : Block).rxBuf = 0x7E :: frameA ∧
    4 ≤ [0x7E, 0x7E, 0x7E, (0x7E : Byte)].length := by decide +kernel

/-- The lengths on both sides of the range, with exactly five bytes buffered. -/
theorem witness_DecoderDropsABadLength : ∀ b ∈ ([0x00, 0x04, 0x81, 0xFF] : List Byte),
    ({ Block.reset with rxBuf := b :: [0, 0, 0, 0] } : Block).rxBuf = b :: [0, 0, 0, 0] ∧
    4 ≤ [0, 0, 0, (0 : Byte)].length ∧ (b.toNat < 5 ∨ 128 < b.toNat) := by decide +kernel

/-- A wait that lacks one byte, at the shortest and the longest length that can wait; a wait that a push does not end;
and one that TX_PULL does not. -/
theorem witness_DecoderWaitsForTheWholeCandidate :
    (4 ≤ [0, 0, 0, (0 : Byte)].length ∧ 5 ≤ (0x06 : Byte).toNat ∧ (0x06 : Byte).toNat ≤ 128 ∧
      (0x06 : Byte) ≠ 0x7E ∧ [0, 0, 0, (0 : Byte)].length + 1 < (0x06 : Byte).toNat) ∧
    (4 ≤ (List.replicate 126 (0 : Byte)).length ∧ (0x80 : Byte).toNat ≤ 128 ∧ (0x80 : Byte) ≠ 0x7E ∧
      (List.replicate 126 (0 : Byte)).length + 1 < (0x80 : Byte).toNat) ∧
    (decStep Params.reference { busy with rxBuf := [0x07, 0, 0, 0, 0] } = .wait ∧
      (∃ t : State, exec (.rxPush 0x10) (at_ { busy with rxBuf := [0x07, 0, 0, 0, 0] }) = .next t) ∧
      ({ busy with rxBuf := [0x07, 0, 0, 0, 0] } : Block).rxBuf.length + 1 < (byteAt [0x07, 0, 0, 0, 0] 0).toNat) ∧
    ∃ t : State, exec .txPull (at_ { busy with rxBuf := [0x07, 0, 0, 0, 0] }) = .next t :=
  ⟨by decide +kernel, by decide +kernel, ⟨by decide +kernel, some_next (by decide +kernel), by decide +kernel⟩, some_next (by decide +kernel)⟩

/-- V-DEC-05; the shortest candidate. -/
theorem witness_DecoderDropsAnUnterminatedCandidate :
    (5 ≤ (0x06 : Byte).toNat ∧ (0x06 : Byte).toNat ≤ 128 ∧ (0x06 : Byte) ≠ 0x7E ∧
      (0x06 : Byte).toNat ≤ [0x0D, 0x01, 0x4E, 0x1B, (0x00 : Byte)].length + 1 ∧
      byteAt [0x06, 0x0D, 0x01, 0x4E, 0x1B, 0x00] ((0x06 : Byte).toNat - 1) ≠ 0x7E) ∧
    (5 ≤ (0x05 : Byte).toNat ∧ (0x05 : Byte).toNat ≤ [0, 0, 0, (0 : Byte)].length + 1 ∧
      byteAt [0x05, 0, 0, 0, 0] ((0x05 : Byte).toNat - 1) ≠ 0x7E) := by decide +kernel

/-- V-DEC-04; the longest candidate, all zeros; a counter that wraps. -/
theorem witness_DecoderCountsAndDropsACrcError :
    (5 ≤ (0x06 : Byte).toNat ∧ (0x06 : Byte).toNat ≤ 128 ∧ (0x06 : Byte) ≠ 0x7E ∧
      (0x06 : Byte).toNat ≤ [0x0C, 0x01, 0x4E, 0x1B, (0x7E : Byte)].length + 1 ∧
      byteAt [0x06, 0x0C, 0x01, 0x4E, 0x1B, 0x7E] ((0x06 : Byte).toNat - 1) = 0x7E ∧
      crc16 ([0x06, 0x0C, 0x01, 0x4E, 0x1B, 0x7E].take ((0x06 : Byte).toNat - 3)) ≠
        byteAt [0x06, 0x0C, 0x01, 0x4E, 0x1B, 0x7E] ((0x06 : Byte).toNat - 3) ++
          byteAt [0x06, 0x0C, 0x01, 0x4E, 0x1B, 0x7E] ((0x06 : Byte).toNat - 2)) ∧
    decStep Params.reference { busy with rxBuf := 0x80 :: (List.replicate 126 0 ++ [0x7E]) } = .dropCrc ∧
    (applyOutcome .dropCrc { busy with crcErrCnt := 0xFFFFFFFF }).crcErrCnt = 0 := by decide +kernel

/-- V-DEC-10; and a push and a pull of TXQ while the frame is held. -/
theorem witness_DecoderHoldsAFrameWhileTheQueueIsFull :
    (ValidFrame frameB ∧ heldState.block.rxBuf = frameB ++ [0x07, 0x0C, 0x03, 0x00, 0xDB, 0xCB, 0x7E] ∧
      heldState.block.fq.length = heldState.params.fqDepth ∧
      decStep heldState.params heldState.block = .hold) ∧
    (∃ t : State, exec (.rxPush 0x7E) heldState = .next t) ∧ ∃ t : State, exec .txPull heldState = .next t :=
  ⟨by decide +kernel, some_next (by decide +kernel), some_next (by decide +kernel)⟩

theorem witness_DecoderEmitsAValidFrame : ValidFrame frameA ∧
    ({ busy with rxBuf := frameA ++ frameB } : Block).rxBuf = frameA ++ frameB ∧
    busy.fq.length ≠ Params.reference.fqDepth := by decide +kernel

theorem witness_DecoderRunEndsQuiescent : Quiescent Params.reference busy ∧
    ¬Quiescent Params.reference { busy with rxBuf := frameA } ∧ busy.rxBuf.length ≤ 2 := by decide +kernel

/-- A machine whose RXBUF holds the most bytes it can hold while FQ has room. -/
def fullestState : State := at_ { busy with rxBuf := 0x80 :: List.replicate 126 0 }

theorem witness_RoomInTheQueueBoundsTheBuffer : Invariant fullestState ∧
    fullestState.block.fq.length < fullestState.params.fqDepth ∧ fullestState.block.rxBuf.length = 127 ∧
    ∃ t : State, exec (.rxPush 0x7E) fullestState = .next t :=
  ⟨⟨by decide +kernel, by decide +kernel, by decide +kernel, by decide +kernel, by decide +kernel, by decide +kernel,
    by decide +kernel⟩, by decide +kernel, by decide +kernel,
    some_next (by decide +kernel)⟩

theorem witness_PopEmitsTheHeldFrame : heldState.block.fq = frameA :: [] ∧
    decStep heldState.params heldState.block = .hold := by decide +kernel

/-- V-DEC-17, the end of it. -/
theorem witness_ChunkingDoesNotMatter :
    ((at_ { busy with rxBuf := frameB.take 4 }).params.Ok ∧
      Quiescent Params.reference { busy with rxBuf := frameB.take 4 } ∧
      ∀ i ∈ [Instr.rxPush 0x1B, .crcByte 0x1B, .regRead 0, .rxPush 0x7E], i ≠ .rxPop ∧ i ≠ .softReset) ∧
    ∃ t : State, runCommands [.rxPush 0x1B, .crcByte 0x1B, .regRead 0, .rxPush 0x7E]
        (at_ { busy with rxBuf := frameB.take 4 }) = .next t ∧
      t.block.fq.length < Params.reference.fqDepth ∧ t.block.fq = [frameA, frameB] :=
  ⟨by decide +kernel, next_of (by decide +kernel)⟩

theorem witness_NoFrameOfLength126IsEmitted : (∀ f ∈ (on busy 0x7E20).block.fq, f.length ≠ 126) ∧
    (∃ t : State, step (on busy 0x7E20) = .next t) ∧
    Config.messageMin ≤ (0x7E :: frameA).length ∧ (byteAt (0x7E :: frameA) 0).toNat = 126 :=
  ⟨by decide +kernel, some_next (by decide +kernel), by decide +kernel, by decide +kernel⟩

/-- ButtonEvent pressed with its state byte set to 0x7E, then KnobEvent 3, then 121 SYNC bytes. -/
def brokenB : List Byte := frameB.set 2 0x7E
/-- KnobEvent 3 (X6). -/
def frameC : List Byte := [0x07, 0x0C, 0x03, 0x00, 0xDB, 0xCB, 0x7E]

theorem witness_DecoderResynchronizes : (ValidFrame frameB ∧ ValidFrame frameC ∧ 1 ≤ 2 ∧ 2 ≤ frameB.length - 2 ∧
    crc16 (brokenB.take (frameB.length - 3)) ≠
      byteAt brokenB (frameB.length - 3) ++ byteAt brokenB (frameB.length - 2) ∧
    128 ≤ frameC.length + (List.replicate 121 (0x7E : Byte)).length) ∧
    (∀ j n : Nat, 0 < j → j < frameB.length →
      ¬ValidFrame (((brokenB ++ frameC ++ List.replicate 121 0x7E).drop j).take n)) ∧
    ∃ t : State, runCommands (pushAll (brokenB ++ frameC ++ List.replicate 121 0x7E)) (at_ Block.reset) = .next t ∧
      t.block.fq.length < Params.reference.fqDepth := by
  refine ⟨by decide +kernel, ?_, next_of (by decide +kernel)⟩
  intro j n hj hl hv
  have key : ∀ j ∈ [1, 2, 3, 4, 5], ∀ n ∈ List.range 129,
      ¬ValidFrame (((brokenB ++ frameC ++ List.replicate 121 0x7E).drop j).take n) := by decide +kernel
  have hn : (((brokenB ++ frameC ++ List.replicate 121 0x7E).drop j).take n).length ≤ 128 := hv.2.2.2.1
  have hj' : j ∈ [1, 2, 3, 4, 5] := by
    simp only [frameB, List.length_cons, List.length_nil] at hl
    simp only [List.mem_cons, List.not_mem_nil, or_false]
    omega
  have hlen : 129 ≤ ((brokenB ++ frameC ++ List.replicate 121 0x7E).drop j).length := by
    simp only [List.length_drop, List.length_append, List.length_replicate, brokenB, frameB, frameC, List.length_set,
      List.length_cons, List.length_nil] at hl ⊢
    omega
  rw [List.length_take] at hn
  exact key j hj' n (List.mem_range.mpr (by omega)) hv

/-- V-DEC-13 and V-DEC-14. -/
theorem witness_GarbageMakesNoFrame : (at_ Block.reset).block.rxBuf = [] ∧
    (∀ b ∈ List.replicate 10 (0x7E : Byte), b = 0x7E) ∧
    (∀ b ∈ ([0x00, 0x01, 0x02, 0x03, 0x04, 0x81, 0xFE, 0xFF] : List Byte), b.toNat < 5 ∨ 128 < b.toNat) := by decide +kernel

/-! ### The encoder -/

/-- The shortest and the longest body, and the lengths beside 122 and 122 itself. -/
theorem witness_EncoderBuildsValidFrames : ∀ n ∈ [1, 121, 122, 123, 124],
    1 ≤ (List.replicate n (0x10 : Byte)).length ∧ (List.replicate n (0x10 : Byte)).length ≤ 124 := by decide +kernel

/-- Each encoder command is performed somewhere, and a decoder has exactly the room for its frames. -/
theorem witness_EncodedFramesDecodeToThemselves :
    (∀ i ∈ [Instr.encSend, .encDisplayText, .encBuzzerPlay 1, .encBuzzerQueue 50 500, .encBeep 50 500],
      encodedBodies busy i ≠ [] ∧
      (nextOf (exec i (at_ busy))).map (·.responses) = some ((at_ busy).responses ++ [⟨.ok, .none⟩])) ∧
    ((at_ { busy with rxBuf := [], fq := [frameA, frameA] }).params.Ok ∧
      [frameA, frameA].length + (encodedBodies busy (.encBeep 50 500)).length ≤ Params.reference.fqDepth) := by
  decide +kernel

theorem witness_PseudoInstructionsDoTheirWork : Quiescent (at_ busy).params (at_ busy).block ∧
    (∀ n ∈ [1, 121, 123, 124], 1 ≤ (List.replicate n (0x10 : Byte)).length ∧
      (List.replicate n (0x10 : Byte)).length ≤ 124 ∧ (List.replicate n (0x10 : Byte)).length ≠ 122 ∧
      busy.txq.length + ((List.replicate n (0x10 : Byte)).length + 4) ≤ Params.reference.txCap) ∧
    (∀ n ∈ [0, 119, 121, 122], (List.replicate n (0x20 : Byte)).length ≤ 122 ∧
      (List.replicate n (0x20 : Byte)).length ≠ 120 ∧
      busy.txq.length + ((List.replicate n (0x20 : Byte)).length + 6) ≤ Params.reference.txCap) := by decide +kernel

/-- V-ENC-32; a frequency above the limit by one in the last place of V-ENC-35; the refused zero. -/
theorem witness_ToneOperandsFollowTheDerivation : ((0 : ℚ) < 400 ∧ (1000000 / 131072 : ℚ) < 77 / 10 ∧
    max 1 (Rat.floor (77 / 10 * 1)) ≤ 2 ^ 32 - 1) ∧ (0 : ℚ) ≤ 0 := by decide +kernel

end Sys2Proof.Tests
end

section
/-! SUPPORT. What a decoder step has tested when it gives its outcome, what an enabled step takes from RXBUF, and how a
run ends (41_decoder.md sections 2 and 3). -/

namespace Sys2Proof.Machine

/-- An entry of a candidate is the entry of the buffer it was taken from. -/
theorem byteAt_take {q : List Byte} {n i : Nat} (h : i < n) : byteAt (q.take n) i = byteAt q i := by
  simp [byteAt, List.getD_eq_getElem?_getD, h]

/-- RXBUF begins with a byte that can be a frame's length (41_decoder.md R64 to R66). -/
abbrev HeadIsLength (k : Block) : Prop :=
  Config.messageMin ≤ k.rxBuf.length ∧ byteAt k.rxBuf 0 ≠ Config.sync ∧
  Config.messageMin ≤ (byteAt k.rxBuf 0).toNat ∧ (byteAt k.rxBuf 0).toNat ≤ Config.messageMax

/-- A valid frame stands whole at the head of RXBUF. -/
abbrev HeadIsFrame (k : Block) : Prop :=
  (byteAt k.rxBuf 0).toNat ≤ k.rxBuf.length ∧ ValidFrame (k.rxBuf.take (byteAt k.rxBuf 0).toNat)

/-- What a decoder step has found when it gives each outcome (41_decoder.md R64). -/
def Found (p : Params) (k : Block) : DecOutcome → Prop
  | .quiescentShort => k.rxBuf.length < Config.messageMin
  | .dropSync => Config.messageMin ≤ k.rxBuf.length ∧ byteAt k.rxBuf 0 = Config.sync
  | .dropBadLen => Config.messageMin ≤ k.rxBuf.length ∧
    ((byteAt k.rxBuf 0).toNat < Config.messageMin ∨ Config.messageMax < (byteAt k.rxBuf 0).toNat)
  | .wait => HeadIsLength k ∧ k.rxBuf.length < (byteAt k.rxBuf 0).toNat
  | .dropNoSync => HeadIsLength k ∧ byteAt k.rxBuf ((byteAt k.rxBuf 0).toNat - 1) ≠ Config.sync
  | .dropCrc => HeadIsLength k ∧
    crc16 (k.rxBuf.take ((byteAt k.rxBuf 0).toNat - Config.trailer)) ≠
      be16Value (byteAt k.rxBuf ((byteAt k.rxBuf 0).toNat - 3)) (byteAt k.rxBuf ((byteAt k.rxBuf 0).toNat - 2))
  | .hold => HeadIsFrame k ∧ k.fq.length = p.fqDepth
  | .emit => HeadIsFrame k ∧ k.fq.length ≠ p.fqDepth

theorem HeadIsLength.of_tests {k : Block} (hshort : ¬k.rxBuf.length < Config.messageMin)
    (hsep : byteAt k.rxBuf 0 ≠ Config.sync)
    (hbad : ¬((byteAt k.rxBuf 0).toNat < Config.messageMin ∨ Config.messageMax < (byteAt k.rxBuf 0).toNat)) :
    HeadIsLength k :=
  ⟨Nat.not_lt.mp hshort, hsep, by omega, by omega⟩

/-- The candidate that has passed the tests of a decoder step is a valid frame (41_decoder.md R63, R64). -/
theorem HeadIsFrame.of_tests {k : Block} (hlen : HeadIsLength k) (hwait : ¬k.rxBuf.length < (byteAt k.rxBuf 0).toNat)
    (hend : byteAt k.rxBuf ((byteAt k.rxBuf 0).toNat - 1) = Config.sync)
    (hcrc : crc16 (k.rxBuf.take ((byteAt k.rxBuf 0).toNat - Config.trailer)) =
      be16Value (byteAt k.rxBuf ((byteAt k.rxBuf 0).toNat - 3)) (byteAt k.rxBuf ((byteAt k.rxBuf 0).toNat - 2))) :
    HeadIsFrame k := by
  obtain ⟨-, hsep, hmin, hmax⟩ := hlen
  have hall := Nat.not_lt.mp hwait
  have hpos : 5 ≤ (byteAt k.rxBuf 0).toNat := hmin
  refine ⟨hall, ?_⟩
  rw [ValidFrame, List.length_take_of_le hall, byteAt_take (by omega), byteAt_take (by omega),
    byteAt_take (by omega), byteAt_take (by omega), List.take_take, min_eq_left (Nat.sub_le _ _)]
  exact ⟨by omega, rfl, hmin, hmax, hsep, hend, hcrc⟩

/-- The tests of a decoder step, in their order, have found what `Found` says of its outcome. -/
theorem decStep_found (p : Params) (k : Block) : Found p k (decStep p k) := by
  unfold decStep
  dsimp only
  split_ifs with hshort hsep hbad hwait hend hcrc hfull
  · exact hshort
  · exact ⟨Nat.not_lt.mp hshort, hsep⟩
  · exact ⟨Nat.not_lt.mp hshort, hbad⟩
  · exact ⟨.of_tests hshort hsep hbad, hwait⟩
  · exact ⟨.of_tests hshort hsep hbad, hend⟩
  · exact ⟨.of_tests hshort hsep hbad, hcrc⟩
  · exact ⟨.of_tests (.of_tests hshort hsep hbad) hwait (not_not.mp hend) (not_not.mp hcrc), hfull⟩
  · exact ⟨.of_tests (.of_tests hshort hsep hbad) hwait (not_not.mp hend) (not_not.mp hcrc), hfull⟩

/-- Everything an enabled step can do to RXBUF and FQ: it drops one byte, or it moves a valid frame to an FQ with
room. -/
theorem enabledStep_cases {p : Params} {k : Block} (h : stepEnabled (decStep p k) = true) :
    (∃ b, k.rxBuf = b :: (applyOutcome (decStep p k) k).rxBuf ∧ (applyOutcome (decStep p k) k).fq = k.fq) ∨
    ∃ f, ValidFrame f ∧ k.fq.length ≠ p.fqDepth ∧ k.rxBuf = f ++ (applyOutcome (decStep p k) k).rxBuf ∧
      (applyOutcome (decStep p k) k).fq = k.fq ++ [f] := by
  have hfound := decStep_found p k
  have hdrop : ∃ b, k.rxBuf = b :: k.rxBuf.drop 1 := by
    have hmin := rxBuf_length_of_enabled h
    cases hbuf : k.rxBuf with
    | nil => simp [hbuf, Config.messageMin] at hmin
    | cons b rest => exact ⟨b, rfl⟩
  cases ho : decStep p k <;> rw [ho] at h hfound
  case quiescentShort | wait | hold => cases h
  case dropSync | dropBadLen | dropNoSync | dropCrc =>
    obtain ⟨b, hb⟩ := hdrop
    exact .inl ⟨b, hb, rfl⟩
  case emit =>
    obtain ⟨⟨-, hvalid⟩, hroom⟩ := hfound
    exact .inr ⟨_, hvalid, hroom, (List.take_append_drop _ _).symm, rfl⟩

/-- A run ends quiescent (41_decoder.md R73). -/
theorem quiescent_decRun (p : Params) (k : Block) : Quiescent p (decRun p k) := by
  rw [decRun_unfold]
  split
  next h =>
    have := applyOutcome_shortens h
    exact quiescent_decRun p _
  next h => simpa using h
termination_by k.rxBuf.length

/-- A performed command that has kept RXBUF and FQ gives a quiescent decoder nothing to do. -/
theorem decRun_of_kept {p : Params} {k k' : Block} (h : Quiescent p k) (hb : k'.rxBuf = k.rxBuf) (hq : k'.fq = k.fq) :
    decRun p k' = k' :=
  decRun_of_quiescent (quiescent_congr hb hq h)

/-- A decoder that is quiescent while FQ has room has no candidate, or waits for the rest of one (10_state.md R23). -/
theorem rxBuf_length_of_quiescent {p : Params} {k : Block} (h : Quiescent p k) (hroom : k.fq.length ≠ p.fqDepth) :
    k.rxBuf.length < Config.messageMax := by
  have hfound := decStep_found p k
  cases ho : decStep p k <;> rw [ho] at hfound <;> rw [Quiescent, ho] at h
  case quiescentShort => exact Nat.lt_trans hfound (by decide)
  case wait =>
    obtain ⟨⟨-, -, -, hmax⟩, hwait⟩ := hfound
    exact Nat.lt_of_lt_of_le hwait hmax
  case hold => exact absurd hfound.2 hroom
  case dropSync | dropBadLen | dropNoSync | dropCrc | emit => cases h

/-- A run as a cutting of RXBUF: the pieces it removes are single bytes and valid frames, and the frames go to FQ
(10_state.md R24, 20_memory.md R32). -/
structure Cut (k k' : Block) (pieces : List (List Byte)) : Prop where
  rxBuf_eq : k.rxBuf = pieces.flatten ++ k'.rxBuf
  piece : ∀ q ∈ pieces, q.length = 1 ∨ ValidFrame q
  fq_eq : k'.fq = k.fq ++ pieces.filter (fun q => 1 < q.length)

theorem ValidFrame.one_lt_length {f : List Byte} (h : ValidFrame f) : 1 < f.length := by
  obtain ⟨-, -, hmin, -⟩ := h
  exact Nat.lt_of_lt_of_le (by decide) hmin

/-- An enabled step cuts off one piece. -/
theorem enabledStep_cut {p : Params} {k : Block} (h : stepEnabled (decStep p k) = true) :
    ∃ q, Cut k (applyOutcome (decStep p k) k) [q] := by
  obtain ⟨b, hbuf, hfq⟩ | ⟨f, hvalid, -, hbuf, hfq⟩ := enabledStep_cases h
  · exact ⟨[b], by simpa using hbuf, by simp, by simpa using hfq⟩
  · exact ⟨f, by simpa using hbuf, by simpa using .inr hvalid, by simpa [hvalid.one_lt_length] using hfq⟩

theorem Cut.append {k k' k'' : Block} {front back : List (List Byte)} (h : Cut k k' front) (h' : Cut k' k'' back) :
    Cut k k'' (front ++ back) where
  rxBuf_eq := by rw [h.rxBuf_eq, h'.rxBuf_eq]; simp
  piece q hq := (List.mem_append.mp hq).elim (h.piece q) (h'.piece q)
  fq_eq := by rw [h'.fq_eq, h.fq_eq]; simp

theorem decRun_cut (p : Params) (k : Block) : ∃ pieces, Cut k (decRun p k) pieces :=
  decRun_induction (P := fun k' => ∃ pieces, Cut k k' pieces)
    (fun _ ⟨pieces, hcut⟩ h =>
      have ⟨q, hq⟩ := enabledStep_cut h
      ⟨pieces ++ [q], hcut.append hq⟩)
    ⟨[], by simp, by simp, by simp⟩

/-- A run only shortens RXBUF. -/
theorem decRun_rxBuf_length_le (p : Params) (k : Block) : (decRun p k).rxBuf.length ≤ k.rxBuf.length := by
  obtain ⟨pieces, hcut⟩ := decRun_cut p k
  simp [hcut.rxBuf_eq]

/-- A run adds only valid frames to FQ (10_state.md R24). -/
theorem decRun_fq_valid {p : Params} {k : Block} (h : ∀ f ∈ k.fq, ValidFrame f) :
    ∀ f ∈ (decRun p k).fq, ValidFrame f := by
  obtain ⟨pieces, hcut⟩ := decRun_cut p k
  intro f hf
  rw [hcut.fq_eq, List.mem_append, List.mem_filter] at hf
  obtain hold | ⟨hpiece, hlong⟩ := hf
  · exact h f hold
  · exact (hcut.piece f hpiece).resolve_left (by simpa using Nat.ne_of_gt (of_decide_eq_true hlong))

/-- A run does not overfill FQ (41_decoder.md R70). -/
theorem decRun_fq_length_le {p : Params} {k : Block} (h : k.fq.length ≤ p.fqDepth) :
    (decRun p k).fq.length ≤ p.fqDepth :=
  decRun_induction (P := fun k' => k'.fq.length ≤ p.fqDepth)
    (fun k' hk henabled => by
      obtain ⟨b, -, hfq⟩ | ⟨f, -, hroom, -, hfq⟩ := enabledStep_cases henabled
      · rwa [hfq]
      · rw [hfq, List.length_append, List.length_singleton]
        omega)
    h

end Sys2Proof.Machine
end

section
/-! SUPPORT. What a command's rule does when it responds, and what one transition can do. -/

namespace Sys2Proof.Machine

/-- TXQ has room for the bytes as a whole (42_encoder.md R85). -/
abbrev Fits (p : Params) (k : Block) (q : List Byte) : Prop := k.txq.length + q.length ≤ p.txCap

/-- Each command's rule where it responds: the guard it has passed, the block it leaves to the decoder's run and the
data it answers. -/
inductive Responds (p : Params) (k : Block) : Instr → Block → RespData → Prop where
  | nop : Responds p k .nop k .none
  | softReset : Responds p k .softReset Block.reset .none
  | regRead {idx : Byte} {w : Word} (view : registerView p k idx = some w) : Responds p k (.regRead idx) k (.word w)
  | crcInit : Responds p k .crcInit { k with crcAcc := Config.crcInit } .none
  | crcByte (b : Byte) : Responds p k (.crcByte b) { k with crcAcc := crcStep k.crcAcc b } .none
  | crcRead : Responds p k .crcRead k (.half k.crcAcc)
  | rxPush {b : Byte} (room : k.rxBuf.length ≠ p.bufCap) :
    Responds p k (.rxPush b) { k with rxBuf := k.rxBuf ++ [b] } .none
  | rxPop {f : List Byte} {rest : List (List Byte)} (fq_eq : k.fq = f :: rest) :
    Responds p k .rxPop { k with fq := rest } (.frame f)
  | stgPut {b : Byte} (room : k.stg.length ≠ Config.stgCap) :
    Responds p k (.stgPut b) { k with stg := k.stg ++ [b] } .none
  | stgClear : Responds p k .stgClear { k with stg := [] } .none
  | encSend (length : LengthOk (frameLength k.stg)) (room : Fits p k (buildFrame k.stg)) :
    Responds p k .encSend { k with txq := k.txq ++ buildFrame k.stg, stg := [] } .none
  | encDisplayText (length : LengthOk (frameLength (messageBody (.displayText k.stg))))
      (room : Fits p k (buildFrame (messageBody (.displayText k.stg)))) :
    Responds p k .encDisplayText
      { k with txq := k.txq ++ buildFrame (messageBody (.displayText k.stg)), stg := [] } .none
  | encBuzzerPlay {c : Byte} (flag : c ≤ 1) (room : Fits p k (buildFrame (messageBody (.buzzerPlay (c = 1))))) :
    Responds p k (.encBuzzerPlay c)
      { k with txq := k.txq ++ buildFrame (messageBody (.buzzerPlay (c = 1))) } .none
  | encBuzzerQueue {cycles : Word} {half : Half}
      (room : Fits p k (buildFrame (messageBody (.buzzerToneQueue cycles half)))) :
    Responds p k (.encBuzzerQueue cycles half)
      { k with txq := k.txq ++ buildFrame (messageBody (.buzzerToneQueue cycles half)) } .none
  | encBeep {cycles : Word} {half : Half}
      (room : Fits p k
        (buildFrame (messageBody (.buzzerToneQueue cycles half)) ++ buildFrame (messageBody (.buzzerPlay true)))) :
    Responds p k (.encBeep cycles half)
      { k with
        txq := k.txq ++
          (buildFrame (messageBody (.buzzerToneQueue cycles half)) ++ buildFrame (messageBody (.buzzerPlay true))) }
      .none
  | txPull {b : Byte} {rest : List Byte} (txq_eq : k.txq = b :: rest) :
    Responds p k .txPull { k with txq := rest } (.byte b)

/-- `tx_append` responds only where the bytes fit (42_encoder.md R85). -/
theorem txAppend_ok {p : Params} {k k' : Block} {q stg : List Byte} {d : RespData}
    (h : txAppend p k q stg = .ok (k', d)) :
    Fits p k q ∧ k' = { k with txq := k.txq ++ q, stg := stg } ∧ d = .none := by
  by_cases hroom : Fits p k q
  · rw [txAppend_of_room hroom] at h
    cases h
    exact ⟨hroom, rfl, rfl⟩
  · rw [txAppend_of_full (Nat.not_le.mp hroom)] at h
    cases h

/-- RX_PUSH is performed while RXBUF has room (41_decoder.md R74). -/
theorem rxPushRule_of_room {p : Params} {k : Block} (b : Byte) (h : k.rxBuf.length ≠ p.bufCap) :
    rxPushRule b p k = .ok ({ k with rxBuf := k.rxBuf ++ [b] }, .none) :=
  if_neg h

/-- A check before an append that has responded has let the append through. -/
theorem guarded_ok {c : Prop} [Decidable c] {x : Performed} {e : Status} {r : Block × RespData}
    (h : (if c then x else raise e) = .ok r) : c ∧ x = .ok r := by
  split at h
  next hc => exact ⟨hc, h⟩
  next => cases h

/-- A rule that responds does what `Responds` says. -/
theorem responds_of_ruleOf {i : Instr} {p : Params} {k k' : Block} {d : RespData}
    (h : ruleOf i p k = .ok (k', d)) : Responds p k i k' d := by
  cases i with
  | nop => cases h; exact .nop
  | softReset => cases h; exact .softReset
  | regRead idx =>
    simp only [ruleOf, regReadRule] at h
    split at h <;> cases h
    exact .regRead ‹_›
  | crcInit => cases h; exact .crcInit
  | crcByte b => cases h; exact .crcByte b
  | crcRead => cases h; exact .crcRead
  | rxPush b =>
    simp only [ruleOf, rxPushRule] at h
    split at h <;> cases h
    exact .rxPush ‹_›
  | rxPop =>
    simp only [ruleOf, rxPopRule] at h
    split at h <;> cases h
    exact .rxPop ‹_›
  | stgPut b =>
    simp only [ruleOf, stgPutRule] at h
    split at h <;> cases h
    exact .stgPut ‹_›
  | stgClear => cases h; exact .stgClear
  | encSend =>
    obtain ⟨hlength, happend⟩ := guarded_ok h
    obtain ⟨hroom, rfl, rfl⟩ := txAppend_ok happend
    exact .encSend hlength hroom
  | encDisplayText =>
    obtain ⟨hlength, happend⟩ := guarded_ok h
    obtain ⟨hroom, rfl, rfl⟩ := txAppend_ok happend
    exact .encDisplayText hlength hroom
  | encBuzzerPlay c =>
    obtain ⟨hflag, happend⟩ := guarded_ok h
    obtain ⟨hroom, rfl, rfl⟩ := txAppend_ok happend
    exact .encBuzzerPlay hflag hroom
  | encBuzzerQueue cycles half =>
    obtain ⟨hroom, rfl, rfl⟩ := txAppend_ok h
    exact .encBuzzerQueue hroom
  | encBeep cycles half =>
    obtain ⟨hroom, rfl, rfl⟩ := txAppend_ok h
    exact .encBeep hroom
  | txPull =>
    simp only [ruleOf, txPullRule] at h
    split at h <;> cases h
    exact .txPull ‹_›

/-- Everything a command can do: it is refused, or its rule's block is left to the decoder's run. -/
theorem exec_responds {i : Instr} {s t : State} (h : exec i s = .next t) :
    (∃ e, t = afterRefusal s e) ∨
    ∃ k d, Responds s.params s.block i k d ∧ t = afterCommand s (decRun s.params k) d := by
  obtain ⟨e, -, rfl⟩ | ⟨k, d, hrule, rfl⟩ := exec_cases h
  · exact .inl ⟨e, rfl⟩
  · exact .inr ⟨k, d, responds_of_ruleOf hrule, rfl⟩

/-- Everything a step can do: idle on an empty port, refuse the word, or perform its command. -/
theorem step_responds {s t : State} (h : step s = .next t) :
    t = s ∨ (∃ e, t = afterRefusal s e) ∨
    ∃ i k d, Responds s.params s.block i k d ∧ t = afterCommand s (decRun s.params k) d := by
  cases hport : s.port with
  | nil =>
    rw [step, hport] at h
    cases h
    exact .inl rfl
  | cons cw rest =>
    cases hdec : decode cw with
    | error e =>
      rw [step_of_decode_error hport hdec] at h
      cases h
      exact .inr (.inl ⟨_, rfl⟩)
    | ok i =>
      rw [step_of_decode_ok hport hdec] at h
      exact .inr ((exec_responds h).imp_right fun ⟨k, d, hk⟩ => ⟨i, k, d, hk⟩)

end Sys2Proof.Machine
end

section
/-! SUPPORT. The invariant of the command boundary without its quiescence, which a command's rule may end and the
decoder's run restores. -/

namespace Sys2Proof.Machine

/-- The clauses of `Invariant` that hold of a block between a command's rule and the decoder's run as well. -/
structure WithinBounds (p : Params) (k : Block) : Prop where
  rxBuf_bound : k.rxBuf.length ≤ p.bufCap
  fq_bound : k.fq.length ≤ p.fqDepth
  stg_bound : k.stg.length ≤ Config.stgCap
  txq_bound : k.txq.length ≤ p.txCap
  fq_valid : ∀ f ∈ k.fq, ValidFrame f

theorem invariant_iff {s : State} :
    Invariant s ↔ s.params.Ok ∧ WithinBounds s.params s.block ∧ Quiescent s.params s.block :=
  ⟨fun ⟨hp, hrx, hfq, hstg, htxq, hvalid, hq⟩ => ⟨hp, ⟨hrx, hfq, hstg, htxq, hvalid⟩, hq⟩,
    fun ⟨hp, ⟨hrx, hfq, hstg, htxq, hvalid⟩, hq⟩ => ⟨hp, hrx, hfq, hstg, htxq, hvalid, hq⟩⟩

theorem withinBounds_reset (p : Params) : WithinBounds p Block.reset := by
  constructor <;> simp [Block.reset]

theorem quiescent_reset (p : Params) : Quiescent p Block.reset := rfl

theorem invariant_resetWith {p : Params} (h : p.Ok) : Invariant (State.resetWith p) :=
  invariant_iff.mpr ⟨h, withinBounds_reset p, quiescent_reset p⟩

/-- No command's rule overfills a queue: each tests the room before it writes. -/
theorem Responds.withinBounds {p : Params} {k k' : Block} {i : Instr} {d : RespData} (h : Responds p k i k' d)
    (hk : WithinBounds p k) : WithinBounds p k' := by
  obtain ⟨hrx, hfq, hstg, htxq, hvalid⟩ := hk
  cases h with
  | nop | regRead | crcRead | crcInit | crcByte => exact ⟨hrx, hfq, hstg, htxq, hvalid⟩
  | softReset => exact withinBounds_reset p
  | rxPush room => exact ⟨by simpa using Nat.lt_of_le_of_ne hrx room, hfq, hstg, htxq, hvalid⟩
  | rxPop fq_eq =>
    rw [fq_eq] at hfq hvalid
    exact ⟨hrx, Nat.le_of_succ_le hfq, hstg, htxq, (List.forall_mem_cons.mp hvalid).2⟩
  | stgPut room => exact ⟨hrx, hfq, by simpa using Nat.lt_of_le_of_ne hstg room, htxq, hvalid⟩
  | stgClear => exact ⟨hrx, hfq, Nat.zero_le _, htxq, hvalid⟩
  | encSend _ room | encDisplayText _ room =>
    exact ⟨hrx, hfq, Nat.zero_le _, List.length_append.trans_le room, hvalid⟩
  | encBuzzerPlay _ room | encBuzzerQueue room | encBeep room =>
    exact ⟨hrx, hfq, hstg, List.length_append.trans_le room, hvalid⟩
  | txPull txq_eq =>
    rw [txq_eq] at htxq
    exact ⟨hrx, hfq, hstg, Nat.le_of_succ_le htxq, hvalid⟩

/-- The decoder's run only moves bytes from RXBUF to an FQ with room. -/
theorem WithinBounds.decRun {p : Params} {k : Block} (hk : WithinBounds p k) : WithinBounds p (decRun p k) where
  rxBuf_bound := (decRun_rxBuf_length_le p k).trans hk.rxBuf_bound
  fq_bound := decRun_fq_length_le hk.fq_bound
  stg_bound := by simpa using hk.stg_bound
  txq_bound := by simpa using hk.txq_bound
  fq_valid := decRun_fq_valid hk.fq_valid

end Sys2Proof.Machine
end

section
/-! The statements about the state's invariants (10_state.md section 5). -/

namespace Sys2Proof.Machine

/-- Settles O32: the rule keeps the bounds, the run keeps them and ends quiescent. -/
theorem everyStepKeepsTheInvariant : Obligations.EveryStepKeepsTheInvariant := by
  intro s t hs h
  obtain ⟨hparams, hbounds, hquiescent⟩ := invariant_iff.mp hs
  obtain rfl | ⟨e, rfl⟩ | ⟨i, k, d, hk, rfl⟩ := step_responds h
  · exact hs
  · exact invariant_iff.mpr ⟨hparams, hbounds, hquiescent⟩
  · exact invariant_iff.mpr ⟨hparams, (hk.withinBounds hbounds).decRun, quiescent_decRun _ _⟩

/-- Settles O34: a command that writes neither RXBUF nor FQ leaves a quiescent decoder nothing to do, so what it
changes is what its own rule writes. -/
theorem elementsAreWrittenOnlyByTheirCommands : Obligations.ElementsAreWrittenOnlyByTheirCommands := by
  intro s t i hq h
  obtain ⟨e, rfl⟩ | ⟨k, d, hk, rfl⟩ := exec_responds h
  · simp
  · cases hk with
    | softReset | rxPush | rxPop =>
      -- may write RXBUF and FQ; the run keeps CRC_ACC, STG and TXQ
      simp
    | nop | regRead | crcInit | crcByte | crcRead | stgPut | stgClear | encSend | encDisplayText | encBuzzerPlay
    | encBuzzerQueue | encBeep | txPull => simp [decRun_of_kept hq]

/-- Settles O48: the run is a composition of cuts of one piece each. -/
theorem decoderRunCutsTheBufferIntoFrames : Obligations.DecoderRunCutsTheBufferIntoFrames := by
  intro p k
  obtain ⟨pieces, hbuf, hpieces, hfq⟩ := decRun_cut p k
  exact ⟨pieces, hbuf, hpieces, hfq⟩

/-- Settles O49: a quiescent decoder with room in FQ has less than the longest frame buffered, and BUF_CAP is no less
than that. -/
theorem roomInTheQueueBoundsTheBuffer : Obligations.RoomInTheQueueBoundsTheBuffer := by
  intro s hs hroom
  obtain ⟨hcap, -⟩ := hs.params_ok
  have hlt : s.block.rxBuf.length < Config.messageMax := rxBuf_length_of_quiescent hs.quiescent (Nat.ne_of_lt hroom)
  refine ⟨Nat.le_of_lt_succ hlt, fun b t h => ?_⟩
  have hrule : ruleOf (.rxPush b) s.params s.block = _ :=
    rxPushRule_of_room b (Nat.ne_of_lt (Nat.lt_of_lt_of_le hlt hcap))
  rw [exec_of_ok hrule] at h
  cases h
  rfl

/-- Settles O31: every queue is empty at reset, and the reference configuration is an admitted one. -/
theorem resetMeetsTheInvariant : Obligations.ResetMeetsTheInvariant :=
  ⟨fun _ => invariant_resetWith, invariant_resetWith (by decide)⟩

end Sys2Proof.Machine
end

section
/-! SUPPORT. The bytes of a command word on a byte-wide bus, and the word put together again (20_memory.md R27). -/

namespace Sys2Proof

@[simp] theorem wordBytes_length (cw : CmdWord) : (wordBytes cw).length = 8 := by
  simp [wordBytes]

/-- Byte `n` of the transfer is bits 8n+7 to 8n. -/
theorem byteAt_wordBytes {cw : CmdWord} {n : Nat} (h : n < 8) :
    Machine.byteAt (wordBytes cw) n = cw.extractLsb' (8 * n) 8 := by
  simp [Machine.byteAt, wordBytes, h]

/-- Bit `i` of the word comes from the byte that carries bits 8k+7 to 8k for `k = i / 8`. -/
theorem wordOfBytes_getLsbD (bs : List Byte) {i : Nat} (hi : i < 64) :
    (wordOfBytes bs).getLsbD i = (Machine.byteAt bs (i / 8)).getLsbD (i % 8) := by
  induction bs generalizing i with
  | nil => simp [wordOfBytes, Machine.byteAt]
  | cons b bs ih =>
    have hcons : wordOfBytes (b :: bs) = (wordOfBytes bs <<< 8) ||| b.setWidth 64 := rfl
    rw [hcons, BitVec.getLsbD_or, BitVec.getLsbD_shiftLeft, BitVec.getLsbD_setWidth]
    by_cases hlow : i < 8
    · simp [Machine.byteAt, hi, hlow, Nat.div_eq_of_lt, Nat.mod_eq_of_lt]
    · obtain ⟨j, rfl⟩ : ∃ j, i = j + 8 := ⟨i - 8, by omega⟩
      simp [Machine.byteAt, hi, ih (i := j) (by omega)]

/-- A word is put together again from its bytes. -/
@[simp] theorem wordOfBytes_wordBytes (cw : CmdWord) : wordOfBytes (wordBytes cw) = cw := by
  apply BitVec.eq_of_getLsbD_eq
  intro i hi
  have hmod : i % 8 < 8 := Nat.mod_lt _ (by decide)
  rw [wordOfBytes_getLsbD _ hi, byteAt_wordBytes (by omega), BitVec.getLsbD_extractLsb', Nat.div_add_mod]
  simp [hmod]

/-- The block takes a whole word from the bus and leaves the bytes behind it. -/
theorem takeWord_wordBytes (cw : CmdWord) (rest : List Byte) : takeWord (wordBytes cw ++ rest) = some (cw, rest) := by
  have htake : takeWord (wordBytes cw ++ rest) = some (wordOfBytes (wordBytes cw), rest) := rfl
  rw [htake, wordOfBytes_wordBytes]

end Sys2Proof
end

section
/-! SUPPORT. A word's transition depends on the block and its parameters alone (20_memory.md R30), and what a command
does when it is repeated at once (20_memory.md R31). -/

namespace Sys2Proof.Machine

/-- The first word of a port is answered by its transition, once, whatever stands behind it and has been answered
before. -/
theorem step_eq_transition (p : Params) (k : Block) (cw : CmdWord) :
    ∃ k' r, transition p k cw = (k', [r]) ∧
      ∀ port responses, step ⟨k, p, cw :: port, responses⟩ = .next ⟨k', p, port, responses ++ [r]⟩ := by
  suffices hstep : ∃ k' r, ∀ port responses,
      step ⟨k, p, cw :: port, responses⟩ = .next ⟨k', p, port, responses ++ [r]⟩ by
    obtain ⟨k', r, hstep⟩ := hstep
    exact ⟨k', r, by simp [transition, hstep], hstep⟩
  cases hdec : decode cw with
  | error e => exact ⟨k, ⟨decodeStatus e, .none⟩, fun _ _ => step_of_decode_error rfl hdec⟩
  | ok i =>
    cases hrule : ruleOf i p k with
    | error e => exact ⟨k, ⟨e, .none⟩, fun _ _ => (step_of_decode_ok rfl hdec).trans (exec_of_error hrule)⟩
    | ok kd =>
      exact ⟨decRun p kd.1, ⟨.ok, kd.2⟩, fun _ _ => (step_of_decode_ok rfl hdec).trans (exec_of_ok hrule)⟩

/-- The fold takes the first word's block on to the other words. -/
theorem runWords_cons {p : Params} {k k' : Block} {cw : CmdWord} {r : Response} (h : transition p k cw = (k', [r]))
    (ws : List CmdWord) : runWords p k (cw :: ws) = ((runWords p k' ws).1, r :: (runWords p k' ws).2) := by
  simp [runWords, h]

/-- The command, performed twice in a row, answers the same twice and leaves the second time the block it left the
first time (20_memory.md R31). -/
def RepeatsAtOnce (i : Instr) (s : State) : Prop :=
  ∃ (t u : State) (r : Response), exec i s = .next t ∧ exec i t = .next u ∧ u.block = t.block ∧
    t.responses = s.responses ++ [r] ∧ u.responses = t.responses ++ [r]

/-- A refused command is refused again: nothing it looks at has changed. -/
theorem repeatsAtOnce_of_error {i : Instr} {s : State} {e : Status} (h : ruleOf i s.params s.block = .error e) :
    RepeatsAtOnce i s :=
  have hagain : ruleOf i (afterRefusal s e).params (afterRefusal s e).block = .error e := h
  ⟨_, _, ⟨e, .none⟩, exec_of_error h, exec_of_error hagain, rfl, rfl, rfl⟩

/-- A command whose rule leaves a quiescent block, and gives on that block what it gave before. -/
theorem repeatsAtOnce_of_ok {i : Instr} {s : State} {k : Block} {d : RespData}
    (h : ruleOf i s.params s.block = .ok (k, d)) (hagain : ruleOf i s.params k = .ok (k, d))
    (hq : Quiescent s.params k) : RepeatsAtOnce i s :=
  have hfirst : exec i s = .next (afterCommand s k d) := exec_of_ok_quiescent hq h
  ⟨_, _, ⟨.ok, d⟩, hfirst, exec_of_ok_quiescent (s := afterCommand s k d) hq hagain, rfl, rfl, rfl⟩

/-- REG_READ of an index that is no register is refused (43_control.md R99). -/
theorem regReadRule_of_none {p : Params} {k : Block} {idx : Byte} (h : registerView p k idx = none) :
    regReadRule idx p k = .error .badReg := by
  simp [regReadRule, h, raise]

/-- REG_READ of a register answers its value and writes nothing (43_control.md R99). -/
theorem regReadRule_of_some {p : Params} {k : Block} {idx : Byte} {w : Word} (h : registerView p k idx = some w) :
    regReadRule idx p k = .ok (k, .word w) := by
  simp [regReadRule, h, respond]

theorem regRead_repeatsAtOnce {s : State} (idx : Byte) (hq : Quiescent s.params s.block) :
    RepeatsAtOnce (.regRead idx) s := by
  cases hview : registerView s.params s.block idx with
  | none => exact repeatsAtOnce_of_error (regReadRule_of_none hview)
  | some w => exact repeatsAtOnce_of_ok (regReadRule_of_some hview) (regReadRule_of_some hview) hq

end Sys2Proof.Machine
end

section
/-! The statements about the command port (20_memory.md). -/

namespace Sys2Proof.Machine

/-- Settles O24, by induction on the words: the first one's step is its transition, and leaves the others to a run of
the same kind. -/
theorem runIsTheFoldOfItsWords : Obligations.RunIsTheFoldOfItsWords := by
  intro s ws
  induction ws generalizing s with
  | nil =>
    intro rest hport
    obtain rfl : s.port = rest := hport
    simp [Host.Core.run, runWords]
  | cons cw ws ih =>
    intro rest hport
    obtain ⟨k, p, port, responses⟩ := s
    obtain rfl : port = cw :: (ws ++ rest) := hport
    obtain ⟨k', r, htransition, hstep⟩ := step_eq_transition p k cw
    obtain ⟨hrun, hlength⟩ := ih ⟨k', p, ws ++ rest, responses ++ [r]⟩ rest rfl
    rw [List.length_cons, core_run_succ (hstep _ _), hrun]
    simpa [runWords_cons htransition] using hlength

/-- Settles O33: three of the commands only read, and the other three write a constant, which a second time changes
nothing; none of them gives the decoder anything to do. -/
theorem idempotentCommandsRepeat : Obligations.IdempotentCommandsRepeat := by
  intro s i hq hi
  obtain rfl | ⟨idx, rfl⟩ | rfl | rfl | rfl | rfl := hi
  · exact repeatsAtOnce_of_ok rfl rfl hq
  · exact regRead_repeatsAtOnce idx hq
  · exact repeatsAtOnce_of_ok rfl rfl hq
  · exact repeatsAtOnce_of_ok rfl rfl (quiescent_congr rfl rfl hq)
  · exact repeatsAtOnce_of_ok rfl rfl (quiescent_congr rfl rfl hq)
  · exact repeatsAtOnce_of_ok rfl rfl (quiescent_reset _)

/-- Settles O28: the block's word is put together of the bytes the transfer cut from it. -/
theorem commandWordTravelsLowByteFirst : Obligations.CommandWordTravelsLowByteFirst := by
  intro cw rest
  refine ⟨wordBytes_length cw, fun n hn => ?_, takeWord_wordBytes cw rest⟩
  rw [byteAt_wordBytes hn, BitVec.extractLsb'_toNat, Nat.shiftRight_eq_div_pow]

end Sys2Proof.Machine
end

section
/-! SUPPORT. What decoding a word gives, said once: how each row of the opcode map reads the fields, and from there when
a word is refused and which command it decodes to (30_encoding.md R39 to R41). -/

namespace Sys2Proof.Machine

/-- A word passes a MASK test where each of its fields does. -/
theorem and_eq_iff_fields (cw mask pattern : CmdWord) :
    cw &&& mask = pattern ↔
      opField cw &&& opField mask = opField pattern ∧ aField cw &&& aField mask = aField pattern ∧
      hField cw &&& hField mask = hField pattern ∧ wField cw &&& wField mask = wField pattern := by
  simp only [word_eq_iff_fields, opField_and, aField_and, hField_and, wField_and]

/-- A[7:1] is zero exactly where A is no more than 1 (30_encoding.md R40). -/
theorem and_0xFE_eq_zero_iff (a : Byte) : a &&& 0xFE#8 = 0#8 ↔ a ≤ 1#8 := by
  revert a
  decide

/-- An opcode finds its row of the map: no two rows share one (30_encoding.md R39). -/
theorem find?_row {r : OpcodeRow} (hr : r ∈ opcodeTable) : opcodeTable.find? (fun q => q.op == r.op) = some r := by
  fin_cases hr <;> rfl

/-- The MASK test of a row, on a word of its opcode, is the test of the fields its command does not use (30_encoding.md
R39, R40). -/
theorem row_matches_iff {r : OpcodeRow} (hr : r ∈ opcodeTable) {cw : CmdWord} (hop : opField cw = r.op) :
    cw &&& r.mask = r.pattern ↔ ¬ReservedFieldSet cw := by
  have hA (a : Byte) : a &&& 0xFF#8 = a := BitVec.and_allOnes
  have hH (h : Half) : h &&& 0xFFFF#16 = h := BitVec.and_allOnes
  have hW (w : Word) : w &&& 0xFFFFFFFF#32 = w := BitVec.and_allOnes
  rw [and_eq_iff_fields, ReservedFieldSet, hop]
  generalize aField cw = a, hField cw = h, wField cw = w
  clear hop
  fin_cases hr <;> simp [opField, aField, hField, wField, hA, hH, hW, and_0xFE_eq_zero_iff]

/-- A row that a word matches builds the command whose encoding the word is (30_encoding.md R38, R39). -/
theorem encode_row_build {r : OpcodeRow} (hr : r ∈ opcodeTable) {cw : CmdWord} (hop : opField cw = r.op)
    (hfree : ¬ReservedFieldSet cw) : encode (r.build (aField cw) (hField cw) (wField cw)) = cw := by
  conv_rhs => rw [← packWord_fields cw]
  rw [encode, packWord_inj, hop]
  rw [ReservedFieldSet, hop] at hfree
  generalize aField cw = a, hField cw = h, wField cw = w at hfree ⊢
  clear hop
  fin_cases hr <;> simp_all [opcodeOf, aOperand, hOperand, wOperand]

/-- A word of a row's opcode is refused where a reserved field is set, and is the row's command otherwise
(30_encoding.md R37, R40). -/
theorem decode_of_row {r : OpcodeRow} (hr : r ∈ opcodeTable) {cw : CmdWord} (hop : opField cw = r.op) :
    decode cw = if ReservedFieldSet cw then .error .rsvd else .ok (r.build (aField cw) (hField cw) (wField cw)) := by
  have hfind : opcodeTable.find? (fun q => q.op == opField cw) = some r := hop ▸ find?_row hr
  simp only [decode, hfind, row_matches_iff hr hop, ite_not]

/-- A word of an assigned opcode has a row. -/
theorem exists_row {cw : CmdWord} (h : opField cw ∈ assignedOpcodes) : ∃ r ∈ opcodeTable, opField cw = r.op := by
  have hops : opcodeTable.map (·.op) = assignedOpcodes := rfl
  rw [← hops] at h
  obtain ⟨r, hr, hop⟩ := List.mem_map.mp h
  exact ⟨r, hr, hop.symm⟩

/-- A word of an unassigned opcode is refused (30_encoding.md R41). -/
theorem decode_of_unassigned {cw : CmdWord} (h : opField cw ∉ assignedOpcodes) : decode cw = .error .badOp := by
  have hnone : opcodeTable.find? (fun r => r.op == opField cw) = none := by
    refine List.find?_eq_none.mpr fun r hr hop => h ?_
    rw [← beq_iff_eq.mp hop]
    exact List.mem_map_of_mem (f := (·.op)) hr
  rw [decode, hnone]

/-- The fields are reserved for assigned opcodes only. -/
theorem ReservedFieldSet.assigned {cw : CmdWord} (h : ReservedFieldSet cw) : opField cw ∈ assignedOpcodes := by
  obtain ⟨hop, -⟩ | ⟨hop, -⟩ | ⟨hop, -⟩ | ⟨hop, -⟩ := h
  case inr.inr.inl => simp [hop, assignedOpcodes]
  all_goals exact List.subset_def.mp (by decide) hop

/-- A word with a reserved field set is refused (30_encoding.md R40). -/
theorem decode_of_reserved {cw : CmdWord} (h : ReservedFieldSet cw) : decode cw = .error .rsvd := by
  obtain ⟨r, hr, hop⟩ := exists_row h.assigned
  rw [decode_of_row hr hop, if_pos h]

/-- Every other word of an assigned opcode decodes, to the command whose encoding it is. -/
theorem decode_of_free {cw : CmdWord} (hop : opField cw ∈ assignedOpcodes) (hfree : ¬ReservedFieldSet cw) :
    ∃ i, decode cw = .ok i ∧ encode i = cw := by
  obtain ⟨r, hr, hop⟩ := exists_row hop
  exact ⟨_, by rw [decode_of_row hr hop, if_neg hfree], encode_row_build hr hop hfree⟩

end Sys2Proof.Machine
end

section
/-! SUPPORT. Encoding and decoding are each other's inverse on the well-formed commands and the words that decode. -/

namespace Sys2Proof.Machine

theorem encodedFields (i : Instr) : Laws.EncodedFields.Statement i :=
  Laws.EncodedFields.of_row (by cases i <;> rfl)

/-- A command's word has a reserved field set exactly where the command is ill-formed (30_encoding.md R40, R42). -/
theorem reservedFieldSet_encode_iff (i : Instr) : ReservedFieldSet (encode i) ↔ wellFormed i = false := by
  obtain ⟨hop, ha, hh, hw, -⟩ := encodedFields i
  rw [ReservedFieldSet, hop, ha, hh, hw]
  cases i <;> simp [opcodeOf, aOperand, hOperand, wOperand, wellFormed]

/-- The row of a command's opcode builds the command back, where no reserved field is set. -/
theorem decode_encode {i : Instr} (h : wellFormed i = true) : decode (encode i) = .ok i := by
  obtain ⟨hop, ha, hh, hw, hrow⟩ := encodedFields i
  obtain ⟨r, hfind, hbuild⟩ := Option.map_eq_some_iff.mp hrow
  have hfree : ¬ReservedFieldSet (encode i) := by simp [reservedFieldSet_encode_iff, h]
  have hr : r.op = opcodeOf i := by simpa using List.find?_some hfind
  rw [decode_of_row (List.mem_of_find?_eq_some hfind) (hop.trans hr.symm), if_neg hfree, ha, hh, hw, hbuild]

/-- The words that decode to a command are its encoding, if it is well-formed, and no others. -/
theorem decode_eq_ok_iff {cw : CmdWord} {i : Instr} : decode cw = .ok i ↔ wellFormed i = true ∧ encode i = cw := by
  constructor
  · intro h
    have hop : opField cw ∈ assignedOpcodes := by
      by_contra hn
      simp [decode_of_unassigned hn] at h
    have hfree : ¬ReservedFieldSet cw := by
      intro hset
      simp [decode_of_reserved hset] at h
    obtain ⟨j, hj, henc⟩ := decode_of_free hop hfree
    cases hj.symm.trans h
    exact ⟨by simpa [← henc, reservedFieldSet_encode_iff] using hfree, henc⟩
  · rintro ⟨hwf, rfl⟩
    exact decode_encode hwf

/-- A command word is taken from the bus and decoded, and the bytes behind it are left (20_memory.md R27). -/
theorem decodeBytes_wordBytes (cw : CmdWord) (rest : List Byte) :
    decodeBytes (wordBytes cw ++ rest) = some (decode cw, rest) := by
  rw [decodeBytes, takeWord_wordBytes]
  rfl

end Sys2Proof.Machine
end

section
/-! SUPPORT. Runs of commands, put together from their parts, and the runs of the assembler's pseudo-instructions
(30_encoding.md R42). -/

namespace Sys2Proof.Machine

/-- Commands run one part after the other. -/
theorem runCommands_append {front : List Instr} {s t : State} (h : runCommands front s = .next t)
    (back : List Instr) : runCommands (front ++ back) s = runCommands back t := by
  induction front generalizing s with
  | nil =>
    cases h
    rfl
  | cons i front ih =>
    cases hexec : exec i s with
    | next u =>
      simp only [runCommands, hexec] at h
      simp only [List.cons_append, runCommands, hexec]
      exact ih h
    | fault e => simp [runCommands, hexec] at h
    | refused e => simp [runCommands, hexec] at h

/-- The commands take the block from `k` to `k'` and answer `rs`, whatever is on the port and has been answered
before. -/
def RunsTo (p : Params) (k : Block) (cmds : List Instr) (k' : Block) (rs : List Response) : Prop :=
  ∀ port responses, runCommands cmds ⟨k, p, port, responses⟩ =
    .next ⟨k', p, port.drop cmds.length, responses ++ rs⟩

theorem RunsTo.append {p : Params} {k k' k'' : Block} {front back : List Instr} {rs rs' : List Response}
    (h : RunsTo p k front k' rs) (h' : RunsTo p k' back k'' rs') : RunsTo p k (front ++ back) k'' (rs ++ rs') := by
  intro port responses
  rw [runCommands_append (h port responses), h', List.drop_drop, ← List.length_append, List.append_assoc]

/-- A command whose rule responds, and then the decoder's run. -/
theorem RunsTo.of_rule {p : Params} {k k' : Block} {i : Instr} {d : RespData} (h : ruleOf i p k = .ok (k', d)) :
    RunsTo p k [i] (decRun p k') [⟨.ok, d⟩] := by
  intro port responses
  have hexec := exec_of_ok (s := ⟨k, p, port, responses⟩) h
  simp [runCommands, hexec, afterCommand]

/-- A command whose rule leaves a quiescent block. -/
theorem RunsTo.of_rule_quiescent {p : Params} {k k' : Block} {i : Instr} {d : RespData}
    (h : ruleOf i p k = .ok (k', d)) (hq : Quiescent p k') : RunsTo p k [i] k' [⟨.ok, d⟩] := by
  have hrun := RunsTo.of_rule h
  rwa [decRun_of_quiescent hq] at hrun

/-- A command for each byte of a sequence, where `block q` is the block after the bytes `q`. -/
theorem RunsTo.map {p : Params} {cmd : Byte → Instr} {block : List Byte → Block} {r : Response} {bytes : List Byte}
    (h : ∀ q b, q.length < bytes.length → RunsTo p (block q) [cmd b] (block (q ++ [b])) [r]) :
    RunsTo p (block []) (bytes.map cmd) (block bytes) (List.replicate bytes.length r) := by
  induction bytes using List.reverseRecOn with
  | nil =>
    intro port responses
    simp [runCommands]
  | append_singleton bytes b ih =>
    have hlast := h bytes b (by simp)
    have hfront := ih fun q c hq => h q c (by simpa using Nat.lt_succ_of_lt hq)
    simpa [List.replicate_succ'] using hfront.append hlast

/-- The CRC takes one more byte by one CRC step (40_crc.md R54). -/
theorem crc16_concat (q : List Byte) (b : Byte) : crc16 (q ++ [b]) = crcStep (crc16 q) b :=
  List.foldl_concat ..

/-- The accepted frame lengths, as numbers (42_encoder.md R84). -/
theorem lengthOk_iff {n : Nat} : LengthOk n ↔ 5 ≤ n ∧ n ≤ 128 ∧ n ≠ 126 := Iff.rfl

theorem frameLength_eq (body : List Byte) : frameLength body = body.length + 4 := rfl

/-- ENC_SEND is performed where its frame has an accepted length and fits (42_encoder.md R88). -/
theorem encSendRule_of_fits {p : Params} {k : Block} (hlen : LengthOk (frameLength k.stg))
    (hroom : Fits p k (buildFrame k.stg)) :
    encSendRule p k = .ok ({ k with txq := k.txq ++ buildFrame k.stg, stg := [] }, .none) := by
  rw [encSendRule, if_pos hlen, txAppend_of_room hroom]

/-- ENC_DISPLAY_TEXT is performed where its frame has an accepted length and fits (42_encoder.md R89). -/
theorem encDisplayTextRule_of_fits {p : Params} {k : Block}
    (hlen : LengthOk (frameLength (messageBody (.displayText k.stg))))
    (hroom : Fits p k (buildFrame (messageBody (.displayText k.stg)))) :
    encDisplayTextRule p k =
      .ok ({ k with txq := k.txq ++ buildFrame (messageBody (.displayText k.stg)), stg := [] }, .none) := by
  rw [encDisplayTextRule, if_pos hlen, txAppend_of_room hroom]

/-- A first command, a command for each byte and a last command, none of which gives the decoder anything to do, where
`block q` is the block after the first command and the bytes `q`. -/
theorem RunsTo.perByte {p : Params} {k k' : Block} {first last : Instr} {cmd : Byte → Instr}
    {block : List Byte → Block} {bytes : List Byte} {d : RespData} (hblock : ∀ q, Quiescent p (block q))
    (hk' : Quiescent p k') (hfirst : ruleOf first p k = .ok (block [], .none))
    (hbyte : ∀ q b, q.length < bytes.length → ruleOf (cmd b) p (block q) = .ok (block (q ++ [b]), .none))
    (hlast : ruleOf last p (block bytes) = .ok (k', d)) :
    RunsTo p k (first :: (bytes.map cmd ++ [last])) k'
      (⟨.ok, .none⟩ :: (List.replicate bytes.length ⟨.ok, .none⟩ ++ [⟨.ok, d⟩])) :=
  have hbytes := RunsTo.map fun q b hq => .of_rule_quiescent (hbyte q b hq) (hblock _)
  (RunsTo.of_rule_quiescent hfirst (hblock [])).append (hbytes.append (.of_rule_quiescent hlast hk'))

/-- STG_CLEAR and an STG_PUT for each byte fill the staging buffer, and a last command takes it (42_encoder.md R86,
R87). -/
theorem RunsTo.staged {p : Params} {k : Block} {bytes frame : List Byte} {last : Instr} (hk : Quiescent p k)
    (hlen : bytes.length ≤ Config.stgCap)
    (hlast : ruleOf last p { k with stg := bytes } = .ok ({ k with stg := [], txq := k.txq ++ frame }, .none)) :
    RunsTo p k (.stgClear :: (bytes.map .stgPut ++ [last])) { k with stg := [], txq := k.txq ++ frame }
      (⟨.ok, .none⟩ :: (List.replicate bytes.length ⟨.ok, .none⟩ ++ [⟨.ok, .none⟩])) :=
  .perByte (block := fun q => { k with stg := q }) (fun _ => quiescent_congr rfl rfl hk)
    (quiescent_congr rfl rfl hk) rfl (fun _ _ hq => if_neg (Nat.ne_of_lt (Nat.lt_of_lt_of_le hq hlen))) hlast

/-- CRC_INIT, a CRC_BYTE for each byte and CRC_READ answer the CRC of the bytes (40_crc.md R59 to R61). -/
theorem RunsTo.crcOf {p : Params} {k : Block} (hk : Quiescent p k) (bytes : List Byte) :
    RunsTo p k (expandPseudo (.crcOf bytes)) { k with crcAcc := crc16 bytes }
      (⟨.ok, .none⟩ :: (List.replicate bytes.length ⟨.ok, .none⟩ ++ [⟨.ok, .half (crc16 bytes)⟩])) :=
  .perByte (block := fun q => { k with crcAcc := crc16 q }) (fun _ => quiescent_congr rfl rfl hk)
    (quiescent_congr rfl rfl hk) rfl (fun q b _ => by rw [crc16_concat]; rfl) rfl

end Sys2Proof.Machine
end

section
/-! The statements about command words, the messages and the pseudo-instructions (30_encoding.md). -/

namespace Sys2Proof.Machine

/-- Settles O25: the opcode finds the command's own row, whose fields hold the operands; only A of ENC_BUZZER_PLAY can
set a reserved bit. -/
theorem decodeOfEncodedCommand : Obligations.DecodeOfEncodedCommand := by
  intro i
  refine ⟨fun hwf => ⟨decode_encode hwf, fun rest => ?_⟩, fun hill => ?_⟩
  · rw [encodeBytes, decodeBytes_wordBytes, decode_encode hwf]
  · exact decode_of_reserved ((reservedFieldSet_encode_iff i).mpr hill)

/-- Settles O26: the row a word matches builds a command that encodes to the word. -/
theorem encodeOfDecodedWord : Obligations.EncodeOfDecodedWord :=
  fun _ _ => decode_eq_ok_iff.mp

/-- Settles O58: each expansion is a first command, one command for each byte and a last command, and none of them
gives a quiescent decoder anything to do. -/
theorem pseudoInstructionsDoTheirWork : Obligations.PseudoInstructionsDoTheirWork := by
  rintro ⟨k, p, port, responses⟩ bytes hq
  refine ⟨fun hmin hmax hsync hroom => ?send, fun hmax hsync hroom => ?displayText, ?crcOf⟩
  case send =>
    have hlen : LengthOk (frameLength bytes) := by
      rw [lengthOk_iff, frameLength_eq]
      omega
    have hrule : ruleOf .encSend p { k with stg := bytes } = _ := encSendRule_of_fits hlen (by simpa using hroom)
    exact ⟨_, RunsTo.staged hq hmax hrule port responses, rfl⟩
  case displayText =>
    have hbody : (messageBody (.displayText bytes)).length = bytes.length + 2 := rfl
    have hlen : LengthOk (frameLength (messageBody (.displayText bytes))) := by
      rw [lengthOk_iff, frameLength_eq]
      omega
    have hrule : ruleOf .encDisplayText p { k with stg := bytes } = _ :=
      encDisplayTextRule_of_fits hlen (by simpa [hbody] using hroom)
    exact ⟨_, RunsTo.staged hq (hmax.trans (by decide)) hrule port responses, rfl⟩
  case crcOf =>
    refine ⟨_, RunsTo.crcOf hq bytes port responses, rfl, ?_⟩
    rw [← List.cons_append, ← List.append_assoc, List.getLast?_concat]

/-- Settles O17: a step's word is answered by its transition, and the transition of a word that decodes is its
command's. -/
theorem stepRunsTheDecodedCommand : Obligations.StepRunsTheDecodedCommand := by
  rintro ⟨k, p, port, responses⟩ cw rest i hport hdec
  obtain rfl : port = cw :: rest := hport
  obtain ⟨k', r, -, hstep⟩ := step_eq_transition p k cw
  exact ⟨step_of_decode_ok rfl hdec, _, r, hstep rest responses, rfl, rfl⟩

/-- Settles O20: no assigned opcode lies in the listed ranges. -/
theorem unassignedOpcodeAnswersBadOp : Obligations.UnassignedOpcodeAnswersBadOp := by
  intro s cw rest hport hrange
  have hassigned : ∀ op ∈ assignedOpcodes,
      ¬((0x03 ≤ op ∧ op ≤ 0x0F) ∨ (0x13 ≤ op ∧ op ≤ 0x1F) ∨ (0x22 ≤ op ∧ op ≤ 0x2F) ∨
        (0x37 ≤ op ∧ op ≤ 0x3F) ∨ 0x41 ≤ op) := by decide
  exact step_of_decode_error hport (decode_of_unassigned fun hop => hassigned _ hop hrange)

/-- Settles O21: the reserved fields are those the MASK column tests. -/
theorem reservedFieldAnswersRsvd : Obligations.ReservedFieldAnswersRsvd := by
  refine ⟨fun s cw rest hport hset => step_of_decode_error hport (decode_of_reserved hset), fun cw hop hfree => ?_⟩
  obtain ⟨i, hdec, -⟩ := decode_of_free hop hfree
  exact ⟨i, hdec⟩

/-- Settles O27, by evaluating the decoder on the ten words. -/
theorem writtenWordsDecode : Obligations.WrittenWordsDecode := by
  unfold Obligations.WrittenWordsDecode
  decide

/-- Settles O57: multi-byte integers travel low byte first, and a frame is four bytes longer than its body. -/
theorem messagesFollowTheirLayouts : Obligations.MessagesFollowTheirLayouts := by
  refine ⟨fun text => ⟨rfl, ?_⟩, fun hi lo => ⟨?_, rfl⟩, fun b => ⟨rfl, rfl⟩, rfl, rfl, fun c => rfl, ?_,
    fun w h => rfl, fun b => ⟨rfl, rfl⟩⟩
  · simp [messageBody, messageArgs]
  · simp [messageBody, messageArgs, commandId, le16_append, Config.cmdKnobEvent]
  · intro w3 w2 w1 w0 h1 h0
    simp [messageBody, messageArgs, commandId, le16_append, le32_append, Config.cmdBuzzerToneQueue, Config.toneMarker]

end Sys2Proof.Machine
end

section
/-! SUPPORT. What a word of one opcode does (30_encoding.md R37 to R40): its command where the fields the command does
not use are zero, and E_RSVD otherwise. -/

namespace Sys2Proof.Machine

/-- The opcodes of the commands that use none of the fields A, H and W (30_encoding.md R39). -/
abbrev bareOpcodes : List Byte := [0x00, 0x01, 0x10, 0x12, 0x21, 0x31, 0x32, 0x33, 0x40]

/-- The opcodes of the commands that use the whole of A and neither H nor W (30_encoding.md R39). -/
abbrev byteOpcodes : List Byte := [0x02, 0x11, 0x20, 0x30]

/-- Such a command uses none of the fields, so each of them is reserved (30_encoding.md R40). -/
theorem reservedFieldSet_of_bare {cw : CmdWord} (hop : opField cw ∈ bareOpcodes)
    (h : ¬(aField cw = 0 ∧ hField cw = 0 ∧ wField cw = 0)) : ReservedFieldSet cw :=
  .inl ⟨hop, by simpa only [not_and_or] using h⟩

/-- Such a command leaves H and W reserved (30_encoding.md R40). -/
theorem reservedFieldSet_of_byte {cw : CmdWord} (hop : opField cw ∈ byteOpcodes)
    (h : ¬(hField cw = 0 ∧ wField cw = 0)) : ReservedFieldSet cw :=
  .inr (.inl ⟨hop, by simpa only [not_and_or] using h⟩)

/-- A command without operands is performed by its opcode alone. -/
theorem step_of_bareOpcode {i : Instr} {op : Byte} (hwf : wellFormed i = true) (hencode : encode i = packWord op 0 0 0)
    (hbare : op ∈ bareOpcodes) {s : State} {cw : CmdWord} {rest : List CmdWord} (hport : s.port = cw :: rest)
    (hop : opField cw = op) :
    (aField cw = 0 ∧ hField cw = 0 ∧ wField cw = 0 → step s = exec i s) ∧
    (¬(aField cw = 0 ∧ hField cw = 0 ∧ wField cw = 0) → step s = .next (afterRefusal s .rsvd)) := by
  subst hop
  constructor
  · rintro ⟨ha, hh, hw⟩
    have hcw : encode i = cw := by rw [hencode, ← packWord_fields cw, ha, hh, hw, opField_packWord]
    exact step_of_decode_ok hport (decode_eq_ok_iff.mpr ⟨hwf, hcw⟩)
  · intro hset
    exact step_of_decode_error hport (decode_of_reserved (reservedFieldSet_of_bare hbare hset))

/-- A command of one byte is performed with the byte that stands in A. -/
theorem step_of_byteOpcode {cmd : Byte → Instr} {op : Byte} (hwf : ∀ b, wellFormed (cmd b) = true)
    (hencode : ∀ b, encode (cmd b) = packWord op b 0 0) (hbyte : op ∈ byteOpcodes) {s : State} {cw : CmdWord}
    {rest : List CmdWord} (hport : s.port = cw :: rest) (hop : opField cw = op) :
    (hField cw = 0 ∧ wField cw = 0 → step s = exec (cmd (aField cw)) s) ∧
    (¬(hField cw = 0 ∧ wField cw = 0) → step s = .next (afterRefusal s .rsvd)) := by
  subst hop
  constructor
  · rintro ⟨hh, hw⟩
    have hcw : encode (cmd (aField cw)) = cw := by rw [hencode, ← hh, ← hw]; simp [packWord_fields]
    exact step_of_decode_ok hport (decode_eq_ok_iff.mpr ⟨hwf _, hcw⟩)
  · intro hset
    exact step_of_decode_error hport (decode_of_reserved (reservedFieldSet_of_byte hbyte hset))

end Sys2Proof.Machine
end

section
/-! SUPPORT. The CRC step through its intermediate value, which is a byte (40_crc.md R53, R57). -/

namespace Sys2Proof.Machine

/-- The second line of the CRC step on an intermediate value kept in 8 bits: the low nibble is added to the high one
(40_crc.md R53). -/
def mixNibbles (b : Byte) : Byte := b ^^^ ((b &&& 0x0F) <<< 4)

/-- The last line of the CRC step on an intermediate value kept in 8 bits (40_crc.md R53). -/
def crcSpread (c : Half) (b : Byte) : Half :=
  ((b.setWidth 16 <<< 8) ||| (c >>> 8)) ^^^ (b.setWidth 16 >>> 4) ^^^ (b.setWidth 16 <<< 3)

/-- Masking in unbounded integers takes the low byte. -/
theorem toNat_low (c : Half) : (c.setWidth 8).toNat = c.toNat &&& 0x00FF := by
  rw [BitVec.toNat_setWidth]
  exact (Nat.and_two_pow_sub_one_eq_mod c.toNat 8).symm

/-- Masking in 16 bits takes the low byte. -/
theorem setWidth_low (c : Half) : (c.setWidth 8).setWidth 16 = c &&& 0x00FF := by
  apply BitVec.eq_of_toNat_eq
  rw [BitVec.toNat_setWidth_of_le (by decide), toNat_low, BitVec.toNat_and]
  rfl

/-- In unbounded integers the low nibble, moved up, stays within 8 bits. -/
theorem toNat_mixNibbles (b : Byte) : (mixNibbles b).toNat = b.toNat ^^^ ((b.toNat &&& 0x000F) <<< 4) := by
  revert b
  decide

/-- In 16 bits the low nibble, moved up, stays within 8 bits as well. -/
theorem setWidth_mixNibbles (b : Byte) :
    (mixNibbles b).setWidth 16 = b.setWidth 16 ^^^ ((b.setWidth 16 &&& 0x000F) <<< 4) := by
  revert b
  decide

/-- The CRC step keeps its intermediate value in 8 bits (40_crc.md R57). -/
theorem crcStep_eq_crcSpread (c : Half) (x : Byte) : crcStep c x = crcSpread c (mixNibbles (x ^^^ c.setWidth 8)) := by
  rw [crcStep, crcSpread, setWidth_mixNibbles, BitVec.setWidth_xor, setWidth_low]

/-- No shift of a byte in the last line leaves the 16 bits of the CRC. -/
theorem toNat_crcSpread (c : Half) (b : Byte) :
    (crcSpread c b).toNat = ((b.toNat <<< 8) ||| (c.toNat >>> 8)) ^^^ (b.toNat >>> 4) ^^^ (b.toNat <<< 3) := by
  have h8 : b.toNat <<< 8 < 2 ^ 16 := by rw [Nat.shiftLeft_eq]; omega
  have h3 : b.toNat <<< 3 < 2 ^ 16 := by rw [Nat.shiftLeft_eq]; omega
  have hwidth : (b.setWidth 16).toNat = b.toNat := BitVec.toNat_setWidth_of_le (by decide)
  simp only [crcSpread, BitVec.toNat_xor, BitVec.toNat_or, BitVec.toNat_shiftLeft, BitVec.toNat_ushiftRight, hwidth,
    Nat.mod_eq_of_lt h8, Nat.mod_eq_of_lt h3]

end Sys2Proof.Machine
end

section
/-! SUPPORT. The CRC step and eight bitwise updates (40_crc.md R58) are both the table-driven step, which shifts the CRC
by a byte and adds the table's entry for the byte shifted out; and the two fill the table alike. -/

namespace Sys2Proof.Machine

/-- The bitwise reflected update of the CRC by one bit (40_crc.md R58). -/
def reflectedUpdate (v : Half) : Half := (v >>> 1) ^^^ (if v.getLsbD 0 = true then 0x8408 else 0)

/-- The high byte of the CRC only moves down. -/
theorem crcSpread_eq_xor (c : Half) (b : Byte) : crcSpread c b = (c >>> 8) ^^^ crcSpread 0#16 b := by
  have hdisjoint : (b.setWidth 16 <<< 8) ||| (c >>> 8) = (c >>> 8) ^^^ (b.setWidth 16 <<< 8) := by
    ext i hi
    by_cases h8 : i < 8
    · simp [h8]
    · have : BitVec.getLsbD c (8 + i) = false := BitVec.getLsbD_of_ge _ _ (by omega)
      simp [this]
  simp only [crcSpread, hdisjoint, BitVec.zero_ushiftRight, BitVec.or_zero, BitVec.xor_assoc]

/-- The CRC step, table-driven. -/
theorem crcStep_eq_table (c : Half) (x : Byte) : crcStep c x = (c >>> 8) ^^^ crcStep 0#16 (x ^^^ c.setWidth 8) := by
  rw [crcStep_eq_crcSpread, crcStep_eq_crcSpread, crcSpread_eq_xor, BitVec.setWidth_zero, BitVec.xor_zero]

/-- Bits above the lowest only move down, whatever they are added to. -/
theorem reflectedUpdate_xor (v : Half) {w : Half} (h : w.getLsbD 0 = false) :
    reflectedUpdate (v ^^^ w) = reflectedUpdate v ^^^ (w >>> 1) := by
  simp only [reflectedUpdate, BitVec.getLsbD_xor, h, Bool.xor_false, BitVec.ushiftRight_xor_distrib]
  ac_rfl

/-- Bits that no update of several reaches only move down. -/
theorem iterate_reflectedUpdate_xor (n : Nat) (v : Half) {w : Half} (h : ∀ i < n, w.getLsbD i = false) :
    reflectedUpdate^[n] (v ^^^ w) = reflectedUpdate^[n] v ^^^ (w >>> n) := by
  induction n generalizing v w with
  | zero => simp
  | succ n ih =>
    have hshift : ∀ i < n, (w >>> 1).getLsbD i = false := fun i hi => by simpa using h (1 + i) (by omega)
    rw [Function.iterate_succ_apply, Function.iterate_succ_apply, reflectedUpdate_xor v (h 0 (by omega)), ih _ hshift,
      ← BitVec.shiftRight_add, Nat.add_comm]

/-- The CRC with its low byte cleared. -/
def clearLow (c : Half) : Half := c ^^^ (c.setWidth 8).setWidth 16

theorem clearLow_getLsbD (c : Half) {i : Nat} (h : i < 8) : (clearLow c).getLsbD i = false := by
  have : i < 16 := by omega
  simp [clearLow, *]

theorem clearLow_shift (c : Half) : clearLow c >>> 8 = c >>> 8 := by
  ext i hi
  simp [clearLow]

/-- A byte added to the CRC meets its low byte only. -/
theorem xor_byte_eq (c : Half) (x : Byte) : c ^^^ x.setWidth 16 = (x ^^^ c.setWidth 8).setWidth 16 ^^^ clearLow c := by
  ext i hi
  simp [clearLow, Bool.xor_comm]

/-- Eight updates, table-driven. -/
theorem iterate_reflectedUpdate_eq_table (c : Half) (x : Byte) :
    reflectedUpdate^[8] (c ^^^ x.setWidth 16) =
      (c >>> 8) ^^^ reflectedUpdate^[8] ((x ^^^ c.setWidth 8).setWidth 16) := by
  rw [xor_byte_eq, iterate_reflectedUpdate_xor 8 _ fun _ => clearLow_getLsbD c, clearLow_shift, BitVec.xor_comm]

/-- Both fill the table alike: its 256 entries are compared. -/
theorem crcStep_zero_eq_iterate (b : Byte) : crcStep 0#16 b = reflectedUpdate^[8] (b.setWidth 16) := by
  revert b
  decide

end Sys2Proof.Machine
end

section
/-! SUPPORT. What commands do to CRC_ACC (40_crc.md R62). -/

namespace Sys2Proof.Machine

theorem fedBytes_cons (i : Instr) (cmds : List Instr) : fedBytes (i :: cmds) = fedBytes [i] ++ fedBytes cmds := by
  cases i <;> rfl

/-- A refused command is not CRC_BYTE, which is never refused (40_crc.md R60). -/
theorem fedBytes_of_error {i : Instr} {p : Params} {k : Block} {e : Status} (h : ruleOf i p k = .error e) :
    fedBytes [i] = [] := by
  cases i with
  | crcByte b => cases h
  | _ => rfl

/-- Of the commands but CRC_INIT and SOFT_RESET, CRC_BYTE alone writes CRC_ACC, by one CRC step. -/
theorem Responds.crcAcc_eq {p : Params} {k k' : Block} {i : Instr} {d : RespData} (h : Responds p k i k' d)
    (hi : i ≠ .crcInit ∧ i ≠ .softReset) : k'.crcAcc = (fedBytes [i]).foldl crcStep k.crcAcc := by
  obtain ⟨hinit, hreset⟩ := hi
  cases h with
  | crcInit => exact absurd rfl hinit
  | softReset => exact absurd rfl hreset
  | _ => rfl

/-- Every command but CRC_INIT and SOFT_RESET answers a next state, whose CRC_ACC has taken the
byte it feeds, if any. -/
theorem exec_feeds {i : Instr} (hi : i ≠ .crcInit ∧ i ≠ .softReset) (s : State) :
    ∃ t, exec i s = .next t ∧ t.block.crcAcc = (fedBytes [i]).foldl crcStep s.block.crcAcc := by
  cases hrule : ruleOf i s.params s.block with
  | error e => exact ⟨_, exec_of_error hrule, by rw [fedBytes_of_error hrule]; rfl⟩
  | ok kd => exact ⟨_, exec_of_ok hrule, by simpa using (responds_of_ruleOf hrule).crcAcc_eq hi⟩

/-- Such commands, one after another, continue the CRC from any CRC_ACC. -/
theorem runCommands_feeds {cmds : List Instr} (h : ∀ i ∈ cmds, i ≠ .crcInit ∧ i ≠ .softReset) (s : State) :
    ∃ t, runCommands cmds s = .next t ∧ t.block.crcAcc = (fedBytes cmds).foldl crcStep s.block.crcAcc := by
  induction cmds generalizing s with
  | nil => exact ⟨s, rfl, rfl⟩
  | cons i cmds ih =>
    obtain ⟨hi, hcmds⟩ := List.forall_mem_cons.mp h
    obtain ⟨t, hexec, ht⟩ := exec_feeds hi s
    obtain ⟨u, hrun, hu⟩ := ih hcmds t
    refine ⟨u, ?_, ?_⟩
    · simpa only [runCommands, hexec] using hrun
    · rw [hu, ht, fedBytes_cons i cmds, List.foldl_append]

end Sys2Proof.Machine
end

section
/-! The statements about the CRC engine (40_crc.md). -/

namespace Sys2Proof.Machine

/-- Settles O36: both sides are the table-driven step, with the same table. -/
theorem crcStepEqualsTheReflectedUpdate : Obligations.CrcStepEqualsTheReflectedUpdate := by
  intro c x
  change crcStep c x = reflectedUpdate^[8] (c ^^^ x.setWidth 16)
  rw [crcStep_eq_table, crcStep_zero_eq_iterate, iterate_reflectedUpdate_eq_table]

/-- Settles O37: in each of the three widths the intermediate value is the same byte. -/
theorem crcStepNeverDiscardsABit : Obligations.CrcStepNeverDiscardsABit := by
  intro c x
  have hlow : x.toNat ^^^ (c.toNat &&& 0x00FF) = (x ^^^ c.setWidth 8).toNat := by rw [BitVec.toNat_xor, toNat_low]
  simp only [hlow, ← toNat_mixNibbles]
  refine ⟨Nat.le_of_lt_succ (BitVec.isLt _), Nat.le_of_lt_succ (BitVec.isLt _), crcStep_eq_crcSpread c x, ?_⟩
  rw [crcStep_eq_crcSpread, toNat_crcSpread]

/-- Settles O38: after CRC_INIT, each command extends the fold of CRC steps by the bytes it feeds. -/
theorem crcUnitComputesTheCrcOfTheFedBytes : Obligations.CrcUnitComputesTheCrcOfTheFedBytes := by
  intro s cmds hcmds
  have hinit : exec .crcInit s = .next _ := exec_of_ok rfl
  obtain ⟨t, hrun, ht⟩ :=
    runCommands_feeds hcmds (afterCommand s (decRun s.params { s.block with crcAcc := Config.crcInit }) .none)
  refine ⟨t, ?_, ?_⟩
  · simpa only [runCommands, hinit] using hrun
  · rw [ht, afterCommand_block, decRun_crcAcc, crc16]

/-- Settles O4: the word's command writes CRC_ACC alone, which gives a quiescent decoder nothing to do. -/
theorem crcInitStartsTheAccumulator : Obligations.CrcInitStartsTheAccumulator :=
  ⟨fun _ _ _ => step_of_bareOpcode (i := .crcInit) (op := 0x10) rfl rfl (by decide),
    fun _ hq => exec_of_ok_quiescent (quiescent_congr rfl rfl hq) rfl⟩

/-- Settles O5: the byte stands in A, and the rule is R53's step. -/
theorem crcByteFeedsTheAccumulator : Obligations.CrcByteFeedsTheAccumulator :=
  ⟨fun _ _ _ => step_of_byteOpcode (cmd := .crcByte) (op := 0x11) (fun _ => rfl) (fun _ => rfl) (by decide),
    fun _ _ hq => exec_of_ok_quiescent (quiescent_congr rfl rfl hq) rfl⟩

/-- Settles O6: the rule answers CRC_ACC and leaves the block, on which a quiescent decoder has nothing to do. -/
theorem crcReadAnswersTheAccumulator : Obligations.CrcReadAnswersTheAccumulator :=
  ⟨fun _ _ _ => step_of_bareOpcode (i := .crcRead) (op := 0x12) rfl rfl (by decide),
    fun _ hq => exec_of_ok_quiescent hq rfl⟩

end Sys2Proof.Machine
end

section
/-! SUPPORT. The outcome of a decoder step, given what it tests (41_decoder.md R64): the converses of
`decStep_found`. -/

namespace Sys2Proof.Machine

@[simp] theorem byteAt_cons_zero (b : Byte) (q : List Byte) : byteAt (b :: q) 0 = b := rfl

theorem byteAt_append_left {q : List Byte} {i : Nat} (h : i < q.length) (q' : List Byte) :
    byteAt (q ++ q') i = byteAt q i :=
  List.getD_append _ _ _ _ h

theorem byteAt_set_of_ne {q : List Byte} {i j : Nat} (h : j ≠ i) (x : Byte) : byteAt (q.set j x) i = byteAt q i := by
  simp [byteAt, List.getD_eq_getElem?_getD, h]

theorem decStep_of_short {p : Params} {k : Block} (h : k.rxBuf.length < Config.messageMin) :
    decStep p k = .quiescentShort :=
  if_pos h

theorem decStep_of_sync {p : Params} {k : Block} (hmin : Config.messageMin ≤ k.rxBuf.length)
    (hsync : byteAt k.rxBuf 0 = Config.sync) : decStep p k = .dropSync := by
  simp only [decStep]
  rw [if_neg (Nat.not_lt.mpr hmin), if_pos hsync]

theorem decStep_of_badLength {p : Params} {k : Block} (hmin : Config.messageMin ≤ k.rxBuf.length)
    (hbad : (byteAt k.rxBuf 0).toNat < Config.messageMin ∨ Config.messageMax < (byteAt k.rxBuf 0).toNat) :
    decStep p k = .dropBadLen := by
  have hsync : byteAt k.rxBuf 0 ≠ Config.sync := by
    intro hsync
    rw [hsync] at hbad
    revert hbad
    decide
  simp only [decStep]
  rw [if_neg (Nat.not_lt.mpr hmin), if_neg hsync, if_pos hbad]

/-- The decoder waits exactly where RXBUF begins with a length and holds fewer bytes (41_decoder.md R67). -/
theorem decStep_eq_wait_iff {p : Params} {k : Block} :
    decStep p k = .wait ↔ HeadIsLength k ∧ k.rxBuf.length < (byteAt k.rxBuf 0).toNat := by
  constructor
  · intro h
    have hfound := decStep_found p k
    rwa [h] at hfound
  · rintro ⟨⟨hmin, hsync, hlow, hhigh⟩, hwait⟩
    simp only [decStep]
    rw [if_neg (Nat.not_lt.mpr hmin), if_neg hsync, if_neg (by omega), if_pos hwait]

/-- RXBUF begins with a length and holds as many bytes. -/
abbrev HeadIsCandidate (k : Block) : Prop := HeadIsLength k ∧ (byteAt k.rxBuf 0).toNat ≤ k.rxBuf.length

/-- The tests that decide over a whole candidate: its last byte, its CRC, room for it (41_decoder.md R68 to R71). -/
theorem decStep_of_candidate {p : Params} {k : Block} (h : HeadIsCandidate k) :
    decStep p k =
      if byteAt k.rxBuf ((byteAt k.rxBuf 0).toNat - 1) ≠ Config.sync then .dropNoSync
      else if crc16 (k.rxBuf.take ((byteAt k.rxBuf 0).toNat - Config.trailer)) ≠
        be16Value (byteAt k.rxBuf ((byteAt k.rxBuf 0).toNat - 3)) (byteAt k.rxBuf ((byteAt k.rxBuf 0).toNat - 2)) then
        .dropCrc
      else if k.fq.length = p.fqDepth then .hold else .emit := by
  obtain ⟨⟨hmin, hsync, hlow, hhigh⟩, hall⟩ := h
  simp only [decStep]
  rw [if_neg (Nat.not_lt.mpr hmin), if_neg hsync, if_neg (by omega), if_neg (Nat.not_lt.mpr hall)]

/-- A buffer whose first `n` bytes announce the length `n` begins with a candidate. -/
theorem headIsCandidate_of_length {k : Block} {n : Nat} (hhead : (byteAt k.rxBuf 0).toNat = n)
    (hmin : Config.messageMin ≤ n) (hmax : n ≤ Config.messageMax) (hsync : byteAt k.rxBuf 0 ≠ Config.sync)
    (hall : n ≤ k.rxBuf.length) : HeadIsCandidate k := by
  subst hhead
  exact ⟨⟨hmin.trans hall, hsync, hmin, hmax⟩, hall⟩

theorem headIsCandidate_of_cons {k : Block} {b : Byte} {rest : List Byte} (hbuf : k.rxBuf = b :: rest)
    (hmin : 5 ≤ b.toNat) (hmax : b.toNat ≤ 128) (hsync : b ≠ 0x7E) (hall : b.toNat ≤ rest.length + 1) :
    HeadIsCandidate k := by
  have hhead : byteAt k.rxBuf 0 = b := by rw [hbuf, byteAt_cons_zero]
  exact headIsCandidate_of_length (by rw [hhead]) hmin hmax (by rwa [hhead]) (by simpa [hbuf] using hall)

/-- A whole candidate that does not end in SYNC (41_decoder.md R68). -/
theorem decStep_of_unterminated {p : Params} {k : Block} {n : Nat} (h : HeadIsCandidate k)
    (hhead : (byteAt k.rxBuf 0).toNat = n) (hend : byteAt k.rxBuf (n - 1) ≠ Config.sync) :
    decStep p k = .dropNoSync := by
  subst hhead
  rw [decStep_of_candidate h]
  exact if_pos hend

/-- A whole candidate that ends in SYNC and whose CRC is wrong (41_decoder.md R69), the CRC field as two bytes. -/
theorem decStep_of_badCrc {p : Params} {k : Block} {n : Nat} (h : HeadIsCandidate k)
    (hhead : (byteAt k.rxBuf 0).toNat = n) (hend : byteAt k.rxBuf (n - 1) = Config.sync)
    (hcrc : crc16 (k.rxBuf.take (n - 3)) ≠ byteAt k.rxBuf (n - 3) ++ byteAt k.rxBuf (n - 2)) :
    decStep p k = .dropCrc := by
  subst hhead
  rw [decStep_of_candidate h, if_neg (not_not.mpr hend), be16Value_eq_append]
  exact if_pos hcrc

/-- A valid frame at the head of RXBUF is held or emitted, as FQ is full or not (41_decoder.md R70, R71). -/
theorem decStep_of_frame {p : Params} {k : Block} (h : HeadIsFrame k) :
    decStep p k = if k.fq.length = p.fqDepth then .hold else .emit := by
  obtain ⟨hall, hvalid⟩ := h
  rw [ValidFrame, List.length_take_of_le hall] at hvalid
  obtain ⟨hpos, -, hmin, hmax, hsync, hend, hcrc⟩ := hvalid
  have hfive : 5 ≤ (byteAt k.rxBuf 0).toNat := hmin
  rw [byteAt_take (by omega)] at hsync hend
  rw [byteAt_take (by omega), byteAt_take (by omega), List.take_take, min_eq_left (Nat.sub_le _ _)] at hcrc
  rw [decStep_of_candidate (headIsCandidate_of_length rfl hmin hmax hsync hall), if_neg (not_not.mpr hend),
    if_neg (not_not.mpr hcrc)]

/-- The decoder holds exactly where a valid frame stands at the head of RXBUF and FQ is full (41_decoder.md R70). -/
theorem decStep_eq_hold_iff {p : Params} {k : Block} :
    decStep p k = .hold ↔ HeadIsFrame k ∧ k.fq.length = p.fqDepth := by
  constructor
  · intro h
    have hfound := decStep_found p k
    rwa [h] at hfound
  · rintro ⟨hframe, hfull⟩
    rw [decStep_of_frame hframe, if_pos hfull]

theorem decStep_of_frame_of_room {p : Params} {k : Block} (h : HeadIsFrame k) (hroom : k.fq.length ≠ p.fqDepth) :
    decStep p k = .emit := by
  rw [decStep_of_frame h, if_neg hroom]

/-- Where a buffer begins with a valid frame, its head byte says how long the frame is. -/
theorem ValidFrame.head_toNat {f rest : List Byte} (h : ValidFrame f) : (byteAt (f ++ rest) 0).toNat = f.length := by
  obtain ⟨hpos, hhead, -⟩ := h
  rw [byteAt_append_left hpos, hhead]

theorem headIsFrame_of_append {k : Block} {f rest : List Byte} (h : ValidFrame f) (hbuf : k.rxBuf = f ++ rest) :
    HeadIsFrame k := by
  rw [HeadIsFrame, hbuf, h.head_toNat, List.take_left]
  exact ⟨by simp, h⟩

theorem headIsFrame_of_take {k : Block} {n : Nat} (h : ValidFrame (k.rxBuf.take n)) : HeadIsFrame k :=
  headIsFrame_of_append h (List.take_append_drop n k.rxBuf).symm

/-- An outcome that enables a step is taken, and the run goes on (41_decoder.md R73). -/
theorem decRun_of_enabled {p : Params} {k : Block} (h : stepEnabled (decStep p k) = true) :
    decRun p k = decRun p (applyOutcome (decStep p k) k) := by
  rw [decRun_unfold, if_pos h]

theorem decRun_of_outcome {p : Params} {k : Block} {o : DecOutcome} (h : decStep p k = o)
    (henabled : stepEnabled o = true) : decRun p k = decRun p (applyOutcome o k) := by
  subst h
  exact decRun_of_enabled henabled

theorem quiescent_of_outcome {p : Params} {k : Block} {o : DecOutcome} (h : decStep p k = o)
    (hdisabled : stepEnabled o = false) : Quiescent p k := by
  rw [Quiescent, h, hdisabled]

/-- A decoder without bytes has nothing to do. -/
theorem quiescent_of_empty {p : Params} {k : Block} (h : k.rxBuf = []) : Quiescent p k :=
  quiescent_of_outcome (decStep_of_short (by rw [h]; decide)) rfl

theorem dropHead_of_cons {k : Block} {b : Byte} {rest : List Byte} (h : k.rxBuf = b :: rest) :
    dropHead k = { k with rxBuf := rest } := by
  simp [dropHead, h]

/-- An outcome that only drops the head byte lets the run go on behind it. -/
theorem decRun_of_drop {p : Params} {k : Block} {o : DecOutcome} {b : Byte} {rest : List Byte} (h : decStep p k = o)
    (henabled : stepEnabled o = true) (hdrop : applyOutcome o k = dropHead k) (hbuf : k.rxBuf = b :: rest) :
    decRun p k = decRun p { k with rxBuf := rest } := by
  rw [decRun_of_outcome h henabled, hdrop, dropHead_of_cons hbuf]

theorem applyOutcome_emit_of_append {k : Block} {f rest : List Byte} (h : ValidFrame f) (hbuf : k.rxBuf = f ++ rest) :
    applyOutcome .emit k = { k with rxBuf := rest, fq := k.fq ++ [f] } := by
  simp only [applyOutcome, hbuf, h.head_toNat, List.take_left, List.drop_left]

/-- A run only appends to FQ (41_decoder.md R71). -/
theorem decRun_fq_prefix (p : Params) (k : Block) : k.fq <+: (decRun p k).fq := by
  obtain ⟨pieces, hcut⟩ := decRun_cut p k
  rw [hcut.fq_eq]
  exact List.prefix_append _ _

/-- What a run puts into FQ is a valid frame. -/
theorem mem_decRun_fq {p : Params} {k : Block} {f : List Byte} (h : f ∈ (decRun p k).fq) : f ∈ k.fq ∨ ValidFrame f := by
  obtain ⟨pieces, hcut⟩ := decRun_cut p k
  rw [hcut.fq_eq, List.mem_append, List.mem_filter] at h
  refine h.imp_right fun ⟨hpiece, hlong⟩ => (hcut.piece f hpiece).resolve_left ?_
  exact Nat.ne_of_gt (of_decide_eq_true hlong)

/-- A run leaves the end of RXBUF. -/
theorem decRun_rxBuf_suffix (p : Params) (k : Block) : (decRun p k).rxBuf <:+ k.rxBuf := by
  obtain ⟨pieces, hcut⟩ := decRun_cut p k
  rw [hcut.rxBuf_eq]
  exact List.suffix_append _ _

/-- A full FQ takes no frame (41_decoder.md R70). -/
theorem decRun_fq_of_full {p : Params} {k : Block} (h : k.fq.length = p.fqDepth) : (decRun p k).fq = k.fq :=
  ((decRun_fq_prefix p k).eq_of_length_le ((decRun_fq_length_le h.le).trans h.ge)).symm

/-- Of a valid frame the first byte is no separator, so the frame does not have SYNC's length (41_decoder.md R79). -/
theorem ValidFrame.length_ne_sync {f : List Byte} (h : ValidFrame f) : f.length ≠ 126 := by
  obtain ⟨-, hhead, -, -, hsync, -⟩ := h
  intro hlen
  exact hsync (BitVec.eq_of_toNat_eq (hhead.trans hlen))

end Sys2Proof.Machine
end

section
/-! SUPPORT. Bytes that arrive behind those the decoder has (41_decoder.md R77): an enabled step does not see them, so
a run may take the bytes in parts. -/

namespace Sys2Proof.Machine

/-- The block with bytes appended to RXBUF. -/
def feed (k : Block) (q : List Byte) : Block := { k with rxBuf := k.rxBuf ++ q }

@[simp] theorem feed_rxBuf (k : Block) (q : List Byte) : (feed k q).rxBuf = k.rxBuf ++ q := rfl
@[simp] theorem feed_fq (k : Block) (q : List Byte) : (feed k q).fq = k.fq := rfl
@[simp] theorem feed_crcErrCnt (k : Block) (q : List Byte) : (feed k q).crcErrCnt = k.crcErrCnt := rfl
@[simp] theorem feed_nil (k : Block) : feed k [] = k := by simp [feed]
@[simp] theorem feed_feed (k : Block) (q q' : List Byte) : feed (feed k q) q' = feed k (q ++ q') := by simp [feed]

/-- Bytes behind a buffer of five bytes and more leave its head byte. -/
theorem byteAt_zero_append {buf : List Byte} (h : Config.messageMin ≤ buf.length) (q : List Byte) :
    byteAt (buf ++ q) 0 = byteAt buf 0 :=
  byteAt_append_left (Nat.lt_of_lt_of_le (by decide) h) q

/-- The decoder waits on while the bytes that have arrived do not complete its candidate (41_decoder.md R67). -/
theorem decStep_wait_of_append {p : Params} {k k' : Block} {q : List Byte} (h : decStep p k = .wait)
    (hbuf : k'.rxBuf = k.rxBuf ++ q) (hshort : k.rxBuf.length + q.length < (byteAt k.rxBuf 0).toNat) :
    decStep p k' = .wait := by
  obtain ⟨⟨hmin, hhead⟩, -⟩ := decStep_eq_wait_iff.mp h
  rw [decStep_eq_wait_iff, HeadIsLength, hbuf, byteAt_zero_append hmin, List.length_append]
  exact ⟨⟨hmin.trans (Nat.le_add_right _ _), hhead⟩, hshort⟩

theorem messageMin_le_feed {k : Block} (h : Config.messageMin ≤ k.rxBuf.length) (q : List Byte) :
    Config.messageMin ≤ (feed k q).rxBuf.length :=
  h.trans (by simp)

theorem HeadIsLength.feed {k : Block} (h : HeadIsLength k) (q : List Byte) : HeadIsLength (feed k q) := by
  obtain ⟨hmin, hhead⟩ := h
  refine ⟨messageMin_le_feed hmin q, ?_⟩
  rwa [feed_rxBuf, byteAt_zero_append hmin]

theorem HeadIsFrame.feed {k : Block} (h : HeadIsFrame k) (q : List Byte) : HeadIsFrame (feed k q) :=
  headIsFrame_of_append h.2 (rest := k.rxBuf.drop (byteAt k.rxBuf 0).toNat ++ q) (by simp [← List.append_assoc])

theorem HeadIsCandidate.feed {k : Block} (h : HeadIsCandidate k) (q : List Byte) : HeadIsCandidate (feed k q) := by
  obtain ⟨hlen, hall⟩ := h
  refine ⟨hlen.feed q, ?_⟩
  rw [feed_rxBuf, byteAt_zero_append hlen.1]
  exact hall.trans (by simp)

/-- The tests of a whole candidate read no byte behind it. -/
theorem decStep_feed_of_candidate {p : Params} {k : Block} (h : HeadIsCandidate k) (q : List Byte) :
    decStep p (feed k q) = decStep p k := by
  rw [decStep_of_candidate (h.feed q), decStep_of_candidate h]
  obtain ⟨⟨hmin, -, hlow, -⟩, hall⟩ := h
  have hpos : 5 ≤ (byteAt k.rxBuf 0).toNat := hlow
  rw [feed_rxBuf, feed_fq, byteAt_zero_append hmin,
    byteAt_append_left (by omega), byteAt_append_left (by omega), byteAt_append_left (by omega),
    List.take_append_of_le_length (by omega)]

/-- An enabled step is enabled by bytes that are all there. -/
theorem decStep_feed {p : Params} {k : Block} (h : stepEnabled (decStep p k) = true) (q : List Byte) :
    decStep p (feed k q) = decStep p k := by
  have hmin := rxBuf_length_of_enabled h
  have hmin' := messageMin_le_feed hmin q
  have hhead : byteAt (feed k q).rxBuf 0 = byteAt k.rxBuf 0 := byteAt_zero_append hmin q
  by_cases hsync : byteAt k.rxBuf 0 = Config.sync
  · rw [decStep_of_sync hmin hsync, decStep_of_sync hmin' (by rw [hhead, hsync])]
  by_cases hbad : (byteAt k.rxBuf 0).toNat < Config.messageMin ∨ Config.messageMax < (byteAt k.rxBuf 0).toNat
  · rw [decStep_of_badLength hmin hbad, decStep_of_badLength hmin' (by rwa [hhead])]
  have hlen := HeadIsLength.of_tests (Nat.not_lt.mpr hmin) hsync hbad
  refine decStep_feed_of_candidate ⟨hlen, Nat.not_lt.mp fun hwait => ?_⟩ q
  rw [decStep_eq_wait_iff.mpr ⟨hlen, hwait⟩] at h
  cases h

theorem dropHead_feed {k : Block} (h : Config.messageMin ≤ k.rxBuf.length) (q : List Byte) :
    dropHead (feed k q) = feed (dropHead k) q := by
  simp [dropHead, feed, List.drop_append_of_le_length (Nat.le_trans (by decide : 1 ≤ Config.messageMin) h)]

/-- An enabled step takes its bytes from the head of RXBUF. -/
theorem applyOutcome_feed {p : Params} {k : Block} (h : stepEnabled (decStep p k) = true) (q : List Byte) :
    applyOutcome (decStep p k) (feed k q) = feed (applyOutcome (decStep p k) k) q := by
  have hmin := rxBuf_length_of_enabled h
  have hdrop := dropHead_feed hmin q
  cases ho : decStep p k with
  | quiescentShort | wait | hold => rfl
  | dropSync | dropBadLen | dropNoSync => exact hdrop
  | dropCrc => simp only [applyOutcome, hdrop]; rfl
  | emit =>
    have hall := (head_of_emit ho).2
    simp only [applyOutcome, feed_rxBuf, byteAt_zero_append hmin, List.take_append_of_le_length hall,
      List.drop_append_of_le_length hall]
    rfl

/-- A run over the bytes there are, and one more when others have arrived, is one run over all of them
(41_decoder.md R77). -/
theorem decRun_feed_decRun (p : Params) (k : Block) (q : List Byte) :
    decRun p (feed (decRun p k) q) = decRun p (feed k q) := by
  by_cases h : stepEnabled (decStep p k) = true
  · have hfeed : stepEnabled (decStep p (feed k q)) = true := by rwa [decStep_feed h]
    have := applyOutcome_shortens h
    rw [decRun_of_enabled h, decRun_of_enabled hfeed, decStep_feed h, applyOutcome_feed h, decRun_feed_decRun]
  · have hq : Quiescent p k := by simpa using h
    rw [decRun_of_quiescent hq]
termination_by k.rxBuf.length

/-- The decoder's own elements, every other element at its reset value. -/
def receiver (k : Block) : Block := { Block.reset with rxBuf := k.rxBuf, fq := k.fq, crcErrCnt := k.crcErrCnt }

@[simp] theorem receiver_rxBuf (k : Block) : (receiver k).rxBuf = k.rxBuf := rfl
@[simp] theorem receiver_fq (k : Block) : (receiver k).fq = k.fq := rfl
@[simp] theorem receiver_crcErrCnt (k : Block) : (receiver k).crcErrCnt = k.crcErrCnt := rfl
@[simp] theorem receiver_feed (k : Block) (q : List Byte) : receiver (feed k q) = feed (receiver k) q := rfl

theorem receiver_eq_iff {k k' : Block} :
    receiver k = receiver k' ↔ k.rxBuf = k'.rxBuf ∧ k.fq = k'.fq ∧ k.crcErrCnt = k'.crcErrCnt := by
  simp [receiver]

theorem receiver_applyOutcome (o : DecOutcome) (k : Block) :
    receiver (applyOutcome o k) = applyOutcome o (receiver k) := by
  cases o <;> rfl

/-- The decoder neither reads nor writes another element than its own. -/
theorem receiver_decRun (p : Params) (k : Block) : receiver (decRun p k) = decRun p (receiver k) := by
  have hstep : decStep p (receiver k) = decStep p k := decStep_congr rfl rfl
  by_cases h : stepEnabled (decStep p k) = true
  · have := applyOutcome_shortens h
    rw [decRun_of_enabled h, decRun_of_enabled (k := receiver k) (by rwa [hstep]), hstep, ← receiver_applyOutcome,
      receiver_decRun]
  · have hq : Quiescent p k := by simpa using h
    have hq' : Quiescent p (receiver k) := quiescent_congr rfl rfl hq
    rw [decRun_of_quiescent hq, decRun_of_quiescent hq']
termination_by k.rxBuf.length

theorem quiescent_receiver_iff {p : Params} {k : Block} : Quiescent p (receiver k) ↔ Quiescent p k :=
  ⟨quiescent_congr rfl rfl, quiescent_congr rfl rfl⟩

end Sys2Proof.Machine
end

section
/-! SUPPORT. What commands do to the decoder's elements (41_decoder.md sections 3 and 4). -/

namespace Sys2Proof.Machine

theorem exec_next (i : Instr) (s : State) : ∃ t, exec i s = .next t := by
  cases hrule : ruleOf i s.params s.block with
  | error e => exact ⟨_, exec_of_error hrule⟩
  | ok kd => exact ⟨_, exec_of_ok hrule⟩

theorem runCommands_cons_next {i : Instr} {cmds : List Instr} {s t : State}
    (h : runCommands (i :: cmds) s = .next t) : ∃ u, exec i s = .next u ∧ runCommands cmds u = .next t := by
  obtain ⟨u, hexec⟩ := exec_next i s
  refine ⟨u, hexec, ?_⟩
  simpa only [runCommands, hexec] using h

/-- What holds before a run of commands and is kept by each of them holds at its end. -/
theorem runCommands_keeps {P : State → Prop} {cmds : List Instr}
    (h : ∀ i ∈ cmds, ∀ s t, P s → exec i s = .next t → P t) {s : State} (hs : P s) :
    ∃ t, runCommands cmds s = .next t ∧ P t := by
  induction cmds generalizing s with
  | nil => exact ⟨s, rfl, hs⟩
  | cons i cmds ih =>
    obtain ⟨hi, hcmds⟩ := List.forall_mem_cons.mp h
    obtain ⟨u, hexec⟩ := exec_next i s
    obtain ⟨t, hrun, ht⟩ := ih hcmds (hi s u hs hexec)
    exact ⟨t, by simpa only [runCommands, hexec] using hrun, ht⟩

theorem pushedBytes_cons (i : Instr) (cmds : List Instr) :
    pushedBytes (i :: cmds) = pushedBytes [i] ++ pushedBytes cmds := by
  cases i <;> rfl

@[simp] theorem pushedBytes_pushAll (bytes : List Byte) : pushedBytes (pushAll bytes) = bytes := by
  induction bytes with
  | nil => rfl
  | cons b bytes ih => exact congrArg (b :: ·) ih

theorem mem_pushAll {i : Instr} {bytes : List Byte} : i ∈ pushAll bytes ↔ ∃ b ∈ bytes, i = .rxPush b := by
  simp [pushAll, eq_comm]

theorem pushAll_ne_rxPop_softReset (bytes : List Byte) : ∀ i ∈ pushAll bytes, i ≠ .rxPop ∧ i ≠ .softReset := by
  intro i hi
  obtain ⟨b, -, rfl⟩ := mem_pushAll.mp hi
  exact ⟨nofun, nofun⟩

/-- Of the commands but SOFT_RESET, RX_PUSH alone writes RXBUF itself, at its tail. -/
theorem Responds.rxBuf_eq {p : Params} {k k' : Block} {i : Instr} {d : RespData} (h : Responds p k i k' d)
    (hi : i ≠ .softReset) : k'.rxBuf = k.rxBuf ++ pushedBytes [i] := by
  cases h with
  | softReset => exact absurd rfl hi
  | rxPush => rfl
  | _ => exact (List.append_nil _).symm

/-- Of the commands but RX_POP and SOFT_RESET, RX_PUSH alone writes an element of the decoder itself. -/
theorem Responds.receiver_eq {p : Params} {k k' : Block} {i : Instr} {d : RespData} (h : Responds p k i k' d)
    (hi : i ≠ .rxPop ∧ i ≠ .softReset) : receiver k' = feed (receiver k) (pushedBytes [i]) := by
  have hbuf := h.rxBuf_eq hi.2
  rw [← receiver_feed, receiver_eq_iff]
  cases h with
  | softReset => exact absurd rfl hi.2
  | rxPop => exact absurd rfl hi.1
  | _ => exact ⟨hbuf, rfl, rfl⟩

/-- No command's own rule puts a frame into FQ. -/
theorem Responds.fq_subset {p : Params} {k k' : Block} {i : Instr} {d : RespData} (h : Responds p k i k' d) :
    k'.fq ⊆ k.fq := by
  cases h with
  | softReset => exact List.nil_subset _
  | rxPop fq_eq =>
    rw [fq_eq]
    exact List.subset_cons_self _ _
  | _ => exact List.Subset.refl _

/-- RX_PUSH is refused only by a full RXBUF (41_decoder.md R74). -/
theorem pushedBytes_of_error {i : Instr} {p : Params} {k : Block} {e : Status} (h : ruleOf i p k = .error e)
    (hroom : k.rxBuf.length ≠ p.bufCap) : pushedBytes [i] = [] := by
  cases i with
  | rxPush b => cases (rxPushRule_of_room b hroom).symm.trans h
  | _ => rfl

theorem exec_params {i : Instr} {s t : State} (h : exec i s = .next t) : t.params = s.params := by
  obtain ⟨e, rfl⟩ | ⟨k, d, -, rfl⟩ := exec_responds h <;> rfl

/-- A command but RX_POP and SOFT_RESET only appends to FQ. -/
theorem exec_fq_prefix {i : Instr} (hi : i ≠ .rxPop ∧ i ≠ .softReset) {s t : State} (h : exec i s = .next t) :
    s.block.fq <+: t.block.fq := by
  obtain ⟨e, rfl⟩ | ⟨k, d, hk, rfl⟩ := exec_responds h
  · exact List.prefix_rfl
  · have hfq : k.fq = s.block.fq := by simpa using congrArg Block.fq (hk.receiver_eq hi)
    rw [afterCommand_block, ← hfq]
    exact decRun_fq_prefix _ _

theorem runCommands_fq_prefix {cmds : List Instr} (hcmds : ∀ i ∈ cmds, i ≠ .rxPop ∧ i ≠ .softReset) {s t : State}
    (h : runCommands cmds s = .next t) : s.block.fq <+: t.block.fq := by
  obtain ⟨t', hrun, ht'⟩ := runCommands_keeps (P := fun u => s.block.fq <+: u.block.fq)
    (fun i hi _ _ hu hexec => hu.trans (exec_fq_prefix (hcmds i hi) hexec)) List.prefix_rfl
  cases hrun.symm.trans h
  exact ht'

/-- At a command boundary with room in RXBUF, a command but RX_POP and SOFT_RESET runs the decoder over the byte it
pushes, if any, and does nothing else to it. -/
theorem exec_receiver {i : Instr} (hi : i ≠ .rxPop ∧ i ≠ .softReset) {s t : State} (hq : Quiescent s.params s.block)
    (hroom : s.block.rxBuf.length ≠ s.params.bufCap) (h : exec i s = .next t) :
    receiver t.block = decRun s.params (feed (receiver s.block) (pushedBytes [i])) := by
  obtain ⟨e, hrule, rfl⟩ | ⟨k, d, hrule, rfl⟩ := exec_cases h
  · rw [pushedBytes_of_error hrule hroom, feed_nil, decRun_of_quiescent (quiescent_receiver_iff.mpr hq),
      afterRefusal_block]
  · rw [afterCommand_block, receiver_decRun, (responds_of_ruleOf hrule).receiver_eq hi]

/-- A run of such commands that leaves room in FQ leaves the decoder where one run over all the pushed bytes does: FQ
had room all the time, so RXBUF had room for every byte (41_decoder.md R77). -/
theorem runCommands_receiver {cmds : List Instr} (hcmds : ∀ i ∈ cmds, i ≠ .rxPop ∧ i ≠ .softReset) {s t : State}
    (hparams : s.params.Ok) (hq : Quiescent s.params s.block) (h : runCommands cmds s = .next t)
    (hroom : t.block.fq.length < s.params.fqDepth) :
    receiver t.block = decRun s.params (feed (receiver s.block) (pushedBytes cmds)) := by
  induction cmds generalizing s with
  | nil =>
    cases h
    rw [pushedBytes, feed_nil, decRun_of_quiescent (quiescent_receiver_iff.mpr hq)]
  | cons i cmds ih =>
    have hfq : s.block.fq.length ≠ s.params.fqDepth :=
      Nat.ne_of_lt ((runCommands_fq_prefix hcmds h).length_le.trans_lt hroom)
    have hbuf : s.block.rxBuf.length ≠ s.params.bufCap :=
      Nat.ne_of_lt ((rxBuf_length_of_quiescent hq hfq).trans_le hparams.1)
    obtain ⟨hi, hcmds⟩ := List.forall_mem_cons.mp hcmds
    obtain ⟨u, hexec, hrun⟩ := runCommands_cons_next h
    have hu := exec_receiver hi hq hbuf hexec
    rw [← exec_params hexec] at hparams hroom hu ⊢
    have hqu : Quiescent u.params u.block := by
      rw [← quiescent_receiver_iff, hu]
      exact quiescent_decRun _ _
    rw [ih hcmds hparams hqu hrun hroom, hu, decRun_feed_decRun, feed_feed, ← pushedBytes_cons]

end Sys2Proof.Machine
end

section
/-! SUPPORT. Bytes the decoder drops: those among which no frame begins (41_decoder.md R81), and those that are no
length (41_decoder.md R82). -/

namespace Sys2Proof.Machine

/-- With room for the longest candidate behind it, a byte where no frame begins is dropped. -/
theorem applyOutcome_of_no_frame {p : Params} {k : Block} (hlong : Config.messageMax ≤ k.rxBuf.length)
    (hframe : ¬HeadIsFrame k) :
    stepEnabled (decStep p k) = true ∧ (applyOutcome (decStep p k) k).rxBuf = k.rxBuf.drop 1 ∧
      (applyOutcome (decStep p k) k).fq = k.fq := by
  have hfound := decStep_found p k
  cases ho : decStep p k <;> rw [ho] at hfound
  case quiescentShort => exact absurd (hlong.trans_lt hfound) (by decide)
  case wait =>
    obtain ⟨⟨-, -, -, hmax⟩, hwait⟩ := hfound
    exact absurd (hwait.trans_le hmax) (Nat.not_lt.mpr hlong)
  case hold | emit => exact absurd hfound.1 hframe
  case dropSync | dropBadLen | dropNoSync | dropCrc => exact ⟨rfl, rfl, rfl⟩

/-- The first `m` bytes are dropped where no frame begins among them and enough bytes stand behind. -/
theorem decRun_skip {p : Params} {m : Nat} {k : Block} (hlong : Config.messageMax + m ≤ k.rxBuf.length)
    (hframe : ∀ j n, j < m → ¬ValidFrame ((k.rxBuf.drop j).take n)) :
    ∃ k' : Block, k'.rxBuf = k.rxBuf.drop m ∧ k'.fq = k.fq ∧ decRun p k = decRun p k' := by
  induction m generalizing k with
  | zero => exact ⟨k, rfl, rfl, rfl⟩
  | succ m ih =>
    obtain ⟨henabled, hbuf, hfq⟩ := applyOutcome_of_no_frame (p := p) (Nat.le_of_add_right_le hlong)
      fun h => hframe 0 _ (Nat.succ_pos m) h.2
    obtain ⟨k', hbuf', hfq', hrun⟩ := ih (k := applyOutcome (decStep p k) k)
      (by rw [hbuf, List.length_drop]; omega)
      (fun j n hj => by rw [hbuf, List.drop_drop, Nat.add_comm]; exact hframe (j + 1) n (Nat.succ_lt_succ hj))
    refine ⟨k', ?_, hfq'.trans hfq, (decRun_of_enabled henabled).trans hrun⟩
    rw [hbuf', hbuf, List.drop_drop, Nat.add_comm]

/-- A valid frame with one byte changed, neither its first nor its SYNC, so that the CRC is wrong, is dropped at its
first byte (41_decoder.md R81). -/
theorem decStep_of_corrupted {p : Params} {k : Block} {f rest : List Byte} {i : Nat} {x : Byte} (h : ValidFrame f)
    (hfirst : 1 ≤ i) (hlast : i ≤ f.length - 2)
    (hcrc : crc16 ((f.set i x).take (f.length - 3)) ≠
      byteAt (f.set i x) (f.length - 3) ++ byteAt (f.set i x) (f.length - 2))
    (hbuf : k.rxBuf = f.set i x ++ rest) : decStep p k = .dropCrc := by
  obtain ⟨-, hlen, hmin, hmax, hsync, hend, -⟩ := h
  have hfive : 5 ≤ f.length := hmin
  have hbyte : ∀ j < f.length, byteAt k.rxBuf j = byteAt (f.set i x) j := fun j hj => by
    rw [hbuf, byteAt_append_left (by simpa using hj)]
  have hhead : byteAt k.rxBuf 0 = byteAt f 0 := by rw [hbyte 0 (by omega), byteAt_set_of_ne (by omega)]
  have htake : k.rxBuf.take (f.length - 3) = (f.set i x).take (f.length - 3) := by
    rw [hbuf, List.take_append_of_le_length (by simp)]
  have hcand : HeadIsCandidate k :=
    headIsCandidate_of_length (by rw [hhead, hlen]) hmin hmax (by rwa [hhead]) (by simp [hbuf])
  refine decStep_of_badCrc hcand (n := f.length) (by rw [hhead, hlen]) ?_ ?_
  · rw [hbyte _ (by omega), byteAt_set_of_ne (by omega), hend]
  · rwa [htake, hbyte _ (by omega), hbyte _ (by omega)]

/-- Behind bytes where no frame begins, the first frame emitted is the one that stands there (41_decoder.md R81). -/
theorem decRun_emits_behind {p : Params} {k : Block} {broken f tail : List Byte} (hf : ValidFrame f)
    (hbuf : k.rxBuf = broken ++ f ++ tail) (hlong : Config.messageMax ≤ f.length + tail.length)
    (hnone : ∀ j n, j < broken.length → ¬ValidFrame ((k.rxBuf.drop j).take n)) (hroom : k.fq.length ≠ p.fqDepth) :
    ∃ more, (decRun p k).fq = k.fq ++ f :: more := by
  obtain ⟨k', hskipped, hfq, hskip⟩ := decRun_skip (p := p) (m := broken.length)
    (by simp only [hbuf, List.length_append]; omega) hnone
  rw [hbuf, List.append_assoc, List.drop_left] at hskipped
  have hemit : decStep p k' = .emit :=
    decStep_of_frame_of_room (headIsFrame_of_append hf hskipped) (by rwa [hfq])
  rw [hskip, decRun_of_outcome hemit rfl, applyOutcome_emit_of_append hf hskipped, hfq]
  obtain ⟨more, hmore⟩ := decRun_fq_prefix p { k' with rxBuf := tail, fq := k.fq ++ [f] }
  exact ⟨more, by rw [← hmore, List.append_assoc, List.singleton_append]⟩

/-- A byte that is a separator or out of the range of lengths. -/
abbrev NoLength (b : Byte) : Prop := b = Config.sync ∨ b.toNat < Config.messageMin ∨ Config.messageMax < b.toNat

theorem noLength_byteAt {q : List Byte} (h : ∀ b ∈ q, NoLength b) (i : Nat) : NoLength (byteAt q i) := by
  by_cases hi : i < q.length
  · rw [byteAt, List.getD_eq_getElem _ _ hi]
    exact h _ (List.getElem_mem hi)
  · rw [byteAt, List.getD_eq_default _ _ (Nat.not_lt.mp hi)]
    decide

/-- Such a byte at the head of RXBUF is left there or dropped (41_decoder.md R64 to R66). -/
theorem decStep_of_noLength {p : Params} {k : Block} (h : NoLength (byteAt k.rxBuf 0)) :
    decStep p k = .quiescentShort ∨ decStep p k = .dropSync ∨ decStep p k = .dropBadLen := by
  by_cases hshort : k.rxBuf.length < Config.messageMin
  · exact .inl (decStep_of_short hshort)
  · have hmin := Nat.not_lt.mp hshort
    exact .inr (h.imp (decStep_of_sync hmin) (decStep_of_badLength hmin))

/-- RXBUF holds only such bytes, and the decoder has found nothing since the block `start`. -/
structure OnlyGarbage (start k : Block) : Prop where
  bytes : ∀ b ∈ k.rxBuf, NoLength b
  fq_eq : k.fq = start.fq
  crcErrCnt_eq : k.crcErrCnt = start.crcErrCnt

theorem OnlyGarbage.dropHead {start k : Block} (h : OnlyGarbage start k) : OnlyGarbage start (dropHead k) :=
  ⟨fun b hb => h.bytes b (List.mem_of_mem_drop hb), h.fq_eq, h.crcErrCnt_eq⟩

theorem OnlyGarbage.decRun {p : Params} {start k : Block} (h : OnlyGarbage start k) :
    OnlyGarbage start (decRun p k) := by
  refine decRun_induction (fun k hk henabled => ?_) h
  obtain ho | ho | ho := decStep_of_noLength (p := p) (noLength_byteAt hk.bytes 0) <;> rw [ho] at henabled ⊢
  · cases henabled
  · exact hk.dropHead
  · exact hk.dropHead

/-- A quiescent decoder holds at most four such bytes. -/
theorem OnlyGarbage.rxBuf_length {p : Params} {start k : Block} (h : OnlyGarbage start k) (hq : Quiescent p k) :
    k.rxBuf.length ≤ 4 := by
  have hfound := decStep_found p k
  obtain ho | ho | ho := decStep_of_noLength (p := p) (noLength_byteAt h.bytes 0)
  · rw [ho] at hfound
    exact Nat.le_of_lt_succ hfound
  · rw [Quiescent, ho] at hq
    cases hq
  · rw [Quiescent, ho] at hq
    cases hq

/-- Pushing such a byte, whether or not RXBUF has room for it. -/
theorem OnlyGarbage.exec_rxPush {start : Block} {s t : State} {b : Byte} (hb : NoLength b)
    (h : OnlyGarbage start s.block ∧ Quiescent s.params s.block) (hexec : exec (.rxPush b) s = .next t) :
    OnlyGarbage start t.block ∧ Quiescent t.params t.block := by
  obtain ⟨hs, hq⟩ := h
  obtain ⟨e, rfl⟩ | ⟨k, d, hk, rfl⟩ := exec_responds hexec
  · exact ⟨hs, hq⟩
  · cases hk
    have hpushed : OnlyGarbage start { s.block with rxBuf := s.block.rxBuf ++ [b] } :=
      ⟨by simpa [or_imp, forall_and] using ⟨hs.bytes, hb⟩, hs.fq_eq, hs.crcErrCnt_eq⟩
    exact ⟨hpushed.decRun, quiescent_decRun _ _⟩

end Sys2Proof.Machine
end

section
/-! The statements about the frame decoder (41_decoder.md). -/

namespace Sys2Proof.Machine

/-- Settles O47: the three outcomes are those that enable no step, and every other step shortens RXBUF, which bounds
the run. -/
theorem decoderRunEndsQuiescent : Obligations.DecoderRunEndsQuiescent := by
  intro p k
  refine ⟨quiescent_decRun p k, decRun_of_quiescent, fun fuel h => decRunFor_eq fuel h le_rfl, ?_, fun h => ?_⟩
  · cases ho : decStep p k <;> simp [Quiescent, ho, stepEnabled]
  · exact applyOutcome_shortens (by simpa using h)

/-- Settles O50: RX_POP leaves the frame at the head of RXBUF and one free slot, which the frame takes. -/
theorem popEmitsTheHeldFrame : Obligations.PopEmitsTheHeldFrame := by
  intro s f rest hfq hhold
  obtain ⟨hframe, hfull⟩ := decStep_eq_hold_iff.mp hhold
  have hrule : ruleOf .rxPop s.params s.block = .ok ({ s.block with fq := rest }, .frame f) := by
    simp [ruleOf, rxPopRule, hfq, respond]
  have hroom : rest.length + 1 = s.params.fqDepth := by rw [← hfull, hfq, List.length_cons]
  have hemit : decStep s.params { s.block with fq := rest } = .emit :=
    decStep_of_frame_of_room hframe (by simp only; omega)
  refine ⟨_, exec_of_ok hrule, rfl, ?_, ?_⟩
  · rw [afterCommand_block, decRun_of_outcome hemit rfl, decRun_fq_of_full (by simpa [applyOutcome] using hroom)]
    rfl
  · rw [afterCommand_block, decRun_of_outcome hemit rfl]
    exact decRun_rxBuf_suffix _ _

/-- Settles O51: each command continues the one run over the bytes so far. -/
theorem chunkingDoesNotMatter : Obligations.ChunkingDoesNotMatter := by
  intro s t cmds hparams hq hcmds hrun hroom
  have h := runCommands_receiver hcmds hparams hq hrun hroom
  rw [← receiver_feed, ← receiver_decRun] at h
  exact receiver_eq_iff.mp h

/-- Settles O52: no command's rule adds a frame to FQ, and the frames the decoder adds are valid, of which none has
SYNC for its length byte. -/
theorem noFrameOfLength126IsEmitted : Obligations.NoFrameOfLength126IsEmitted := by
  refine ⟨fun s t hs h f hf => ?_, fun p k hmin hhead => ?_⟩
  · obtain rfl | ⟨e, rfl⟩ | ⟨i, k, d, hk, rfl⟩ := step_responds h
    · exact hs f hf
    · exact hs f hf
    · obtain hold | hvalid := mem_decRun_fq hf
      · exact hs f (hk.fq_subset hold)
      · exact hvalid.length_ne_sync
  · have hstep : decStep p k = .dropSync := decStep_of_sync hmin (BitVec.eq_of_toNat_eq hhead)
    exact ⟨hstep, decRun_of_outcome hstep rfl⟩

/-- Settles O53: one run over all the bytes drops the broken frame byte by byte, for no frame begins in it, and emits
the frame behind it. -/
theorem decoderResynchronizes : Obligations.DecoderResynchronizes := by
  intro f1 f2 tail i x hf1 hf2 hfirst hlast hcrc
  have hdrop : ∀ (p : Params) (k : Block) (rest : List Byte), k.rxBuf = f1.set i x ++ rest → decStep p k = .dropCrc :=
    fun p k rest => decStep_of_corrupted hf1 hfirst hlast hcrc
  refine ⟨hdrop, fun s t hparams hempty hlong hnone hrun hroom => ?_⟩
  have hpush := pushAll_ne_rxPop_softReset (f1.set i x ++ f2 ++ tail)
  have hfull : s.block.fq.length ≠ s.params.fqDepth :=
    Nat.ne_of_lt ((runCommands_fq_prefix hpush hrun).length_le.trans_lt hroom)
  have hreceived := runCommands_receiver hpush hparams (quiescent_of_empty hempty) hrun hroom
  rw [pushedBytes_pushAll] at hreceived
  have hbuf : (feed (receiver s.block) (f1.set i x ++ f2 ++ tail)).rxBuf = f1.set i x ++ f2 ++ tail := by
    rw [feed_rxBuf, receiver_rxBuf, hempty, List.nil_append]
  have hnoFrame : ∀ j n, j < (f1.set i x).length →
      ¬ValidFrame (((feed (receiver s.block) (f1.set i x ++ f2 ++ tail)).rxBuf.drop j).take n) := by
    intro j n hj hvalid
    obtain rfl | hpos := Nat.eq_zero_or_pos j
    · have hstep := decStep_of_frame (p := s.params) (headIsFrame_of_take hvalid)
      rw [hdrop _ _ _ (hbuf.trans (List.append_assoc ..))] at hstep
      split at hstep <;> cases hstep
    · rw [hbuf] at hvalid
      exact hnone j n hpos (by simpa using hj) hvalid
  obtain ⟨more, hmore⟩ := decRun_emits_behind hf2 hbuf hlong hnoFrame hfull
  exact ⟨more, by rw [← receiver_fq, hreceived, hmore, feed_fq, receiver_fq]⟩

/-- Settles O54: every push keeps RXBUF free of lengths, so the decoder only drops. -/
theorem garbageMakesNoFrame : Obligations.GarbageMakesNoFrame := by
  intro s bytes hempty hbytes
  have hgarbage : ∀ b ∈ bytes, NoLength b := fun b hb => hbytes.imp (· b hb) (· b hb)
  have hstart : OnlyGarbage s.block s.block ∧ Quiescent s.params s.block :=
    ⟨⟨by simp [hempty], rfl, rfl⟩, quiescent_of_empty hempty⟩
  obtain ⟨t, hrun, ht, hq⟩ := runCommands_keeps (cmds := pushAll bytes)
    (P := fun t => OnlyGarbage s.block t.block ∧ Quiescent t.params t.block)
    (fun i hi u v hu hexec => by
      obtain ⟨b, hb, rfl⟩ := mem_pushAll.mp hi
      exact OnlyGarbage.exec_rxPush (hgarbage b hb) hu hexec)
    hstart
  exact ⟨t, hrun, ht.fq_eq, ht.crcErrCnt_eq, ht.rxBuf_length hq⟩

/-- Settles O7: a quiescent decoder with room in FQ has room in RXBUF, so RXBUF is full only while FQ is. -/
theorem rxPushAppendsThenDecodes : Obligations.RxPushAppendsThenDecodes := by
  refine ⟨fun _ _ _ => step_of_byteOpcode (cmd := .rxPush) (op := 0x20) (fun _ => rfl) (fun _ => rfl) (by decide),
    fun s b hroom => exec_of_ok (rxPushRule_of_room b hroom), fun s b hfull => exec_of_error (if_pos hfull),
    fun s hs hfull => ?_, fun p k => ⟨decRun_crcAcc p k, decRun_stg p k, decRun_txq p k⟩⟩
  by_contra hroom
  have hlt := rxBuf_length_of_quiescent hs.quiescent hroom
  exact absurd (hfull ▸ hlt) (Nat.not_lt.mpr hs.params_ok.1)

/-- Settles O8: FQ holds valid frames only, whose first byte is their length. -/
theorem rxPopTakesTheOldestFrame : Obligations.RxPopTakesTheOldestFrame := by
  refine ⟨fun _ _ _ => step_of_bareOpcode (i := .rxPop) (op := 0x21) rfl rfl (by decide),
    fun s f rest hfq => exec_of_ok (by simp [ruleOf, rxPopRule, hfq, respond]), fun s f rest hs hfq => ?_,
    fun s hfq => exec_of_error (by simp [ruleOf, rxPopRule, hfq, raise]),
    fun p k => ⟨decRun_crcAcc p k, decRun_stg p k, decRun_txq p k⟩⟩
  obtain ⟨-, hhead, hmin, hmax, -⟩ := hs.fq_valid f (by simp [hfq])
  exact ⟨hhead, hmin, hmax⟩

/-- Settles O39: the length is tested before any byte is read. -/
theorem decoderLeavesAShortBuffer : Obligations.DecoderLeavesAShortBuffer := by
  intro p k h
  have hstep : decStep p k = .quiescentShort := decStep_of_short h
  exact ⟨hstep, decRun_of_quiescent (quiescent_of_outcome hstep rfl)⟩

/-- Settles O40: SYNC is tested before the head is read as a length. -/
theorem decoderDropsASyncSeparator : Obligations.DecoderDropsASyncSeparator := by
  intro p k rest hbuf hlen
  have hstep : decStep p k = .dropSync :=
    decStep_of_sync (by simpa [hbuf, Config.messageMin] using hlen) (by rw [hbuf]; rfl)
  exact ⟨hstep, decRun_of_drop hstep rfl rfl hbuf⟩

/-- Settles O41: SYNC is itself in the range of lengths, so a byte outside it has passed the test for SYNC. -/
theorem decoderDropsABadLength : Obligations.DecoderDropsABadLength := by
  intro p k b rest hbuf hlen hbad
  have hstep : decStep p k = .dropBadLen :=
    decStep_of_badLength (by simpa [hbuf, Config.messageMin] using hlen) (by rwa [hbuf])
  exact ⟨hstep, decRun_of_drop hstep rfl rfl hbuf⟩

/-- Settles O42: the bytes that a command leaves at the head of RXBUF are those the decoder waits with, and only
RX_PUSH makes them more. -/
theorem decoderWaitsForTheWholeCandidate : Obligations.DecoderWaitsForTheWholeCandidate := by
  refine ⟨fun p k b rest hbuf hlen hmin hmax hsync hwait => ?_, fun s t i hwait h hreset hpush => ?_⟩
  · have hstep : decStep p k = .wait := by
      rw [decStep_eq_wait_iff, HeadIsLength, hbuf]
      exact ⟨⟨Nat.succ_le_succ hlen, hsync, hmin, hmax⟩, hwait⟩
    have hq := quiescent_of_outcome hstep rfl
    exact ⟨hstep, hq, decRun_of_quiescent hq⟩
  · obtain ⟨e, rfl⟩ | ⟨k, d, hk, rfl⟩ := exec_responds h
    · exact ⟨hwait, List.prefix_rfl⟩
    · have hbuf := hk.rxBuf_eq hreset
      have hmore : s.block.rxBuf.length + (pushedBytes [i]).length < (byteAt s.block.rxBuf 0).toNat := by
        cases i with
        | rxPush b => exact hpush b rfl
        | _ => exact (decStep_eq_wait_iff.mp hwait).2
      have hkept := decStep_wait_of_append hwait hbuf hmore
      rw [afterCommand_block, afterCommand_params, decRun_of_quiescent (quiescent_of_outcome hkept rfl), hbuf]
      exact ⟨hkept, List.prefix_append _ _⟩

/-- Settles O43: of the tests of a whole candidate, that of its last byte comes first. -/
theorem decoderDropsAnUnterminatedCandidate : Obligations.DecoderDropsAnUnterminatedCandidate := by
  intro p k b rest hbuf hmin hmax hsync hall hend
  have hcand := headIsCandidate_of_cons hbuf hmin hmax hsync hall
  have hstep : decStep p k = .dropNoSync := decStep_of_unterminated hcand (by rw [hbuf, byteAt_cons_zero]) hend
  exact ⟨hstep, decRun_of_drop hstep rfl rfl hbuf⟩

/-- Settles O44: the two CRC bytes side by side are their big-endian value. -/
theorem decoderCountsAndDropsACrcError : Obligations.DecoderCountsAndDropsACrcError := by
  intro p k b rest hbuf hmin hmax hsync hall hend hcrc
  have hcand := headIsCandidate_of_cons hbuf hmin hmax hsync hall
  have hstep : decStep p k = .dropCrc := decStep_of_badCrc hcand (by rw [hbuf, byteAt_cons_zero]) hend hcrc
  have hcount : BitVec.ofNat 32 (k.crcErrCnt.toNat + 1) = k.crcErrCnt + 1 := by simp [BitVec.ofNat_add]
  refine ⟨hstep, ?_⟩
  rw [decRun_of_outcome hstep rfl, applyOutcome, dropHead_of_cons hbuf, hcount]

/-- Settles O45: a frame at the head of RXBUF stays one whatever is pushed behind it, and FQ stays full. -/
theorem decoderHoldsAFrameWhileTheQueueIsFull : Obligations.DecoderHoldsAFrameWhileTheQueueIsFull := by
  refine ⟨fun p k f rest hf hbuf hfull => ?_, fun s t i hhold h hpop hreset => ?_⟩
  · have hstep := decStep_eq_hold_iff.mpr ⟨headIsFrame_of_append hf hbuf, hfull⟩
    have hq := quiescent_of_outcome hstep rfl
    exact ⟨hstep, hq, decRun_of_quiescent hq⟩
  · obtain ⟨e, rfl⟩ | ⟨k, d, hk, rfl⟩ := exec_responds h
    · exact ⟨hhold, List.prefix_rfl, rfl, rfl⟩
    · obtain ⟨hframe, hfull⟩ := decStep_eq_hold_iff.mp hhold
      have hreceiver := hk.receiver_eq ⟨hpop, hreset⟩
      rw [← receiver_feed] at hreceiver
      obtain ⟨hbuf, hfq, hcount⟩ := receiver_eq_iff.mp hreceiver
      have hkept : decStep s.params k = .hold := by
        rw [decStep_congr hbuf (by rw [hfq])]
        exact decStep_eq_hold_iff.mpr ⟨hframe.feed _, hfull⟩
      rw [afterCommand_block, afterCommand_params, decRun_of_quiescent (quiescent_of_outcome hkept rfl), hbuf]
      exact ⟨hkept, List.prefix_append _ _, hfq, hcount⟩

/-- Settles O46: the head byte of a valid frame says where it ends, so exactly its bytes are moved. -/
theorem decoderEmitsAValidFrame : Obligations.DecoderEmitsAValidFrame := by
  intro p k f rest hf hbuf hroom
  have hstep : decStep p k = .emit := decStep_of_frame_of_room (headIsFrame_of_append hf hbuf) hroom
  refine ⟨hstep, ?_⟩
  rw [decRun_of_outcome hstep rfl, applyOutcome_emit_of_append hf hbuf]

end Sys2Proof.Machine
end

section
/-! SUPPORT. The frame of a body (42_encoder.md section 1): its bytes, and when it is valid. -/

namespace Sys2Proof.Machine

/-- The bytes of a frame in their order (42_encoder.md R83). -/
theorem buildFrame_eq (body : List Byte) :
    buildFrame body = (BitVec.ofNat 8 (frameLength body) :: body) ++
      (be16 (crc16 (BitVec.ofNat 8 (frameLength body) :: body)) ++ [Config.sync]) :=
  List.append_assoc ..

/-- Behind the bytes `q` the entries are those of what follows. -/
theorem byteAt_append_length_add (q q' : List Byte) (i : Nat) :
    byteAt (q ++ q') (q.length + i) = byteAt q' i := by
  rw [byteAt, List.getD_append_right _ _ _ _ (Nat.le_add_right _ _), Nat.add_sub_cancel_left, byteAt]

/-- The trailer stands behind the length and the body: two bytes of CRC, most significant first, and SYNC. -/
theorem buildFrame_trailer (body : List Byte) :
    be16Value (byteAt (buildFrame body) (body.length + 1)) (byteAt (buildFrame body) (body.length + 2)) =
      crc16 ((buildFrame body).take (body.length + 1)) ∧
    byteAt (buildFrame body) (body.length + 3) = Config.sync := by
  have hframe := buildFrame_eq body
  have hlen : (BitVec.ofNat 8 (frameLength body) :: body).length = body.length + 1 := rfl
  generalize BitVec.ofNat 8 (frameLength body) :: body = pre at hframe hlen
  have hbyte (i : Nat) :
      byteAt (buildFrame body) (body.length + 1 + i) = byteAt (be16 (crc16 pre) ++ [Config.sync]) i := by
    rw [hframe, ← hlen, byteAt_append_length_add]
  have htake : (buildFrame body).take (body.length + 1) = pre := by rw [hframe, ← hlen, List.take_left]
  rw [htake]
  exact ⟨(congrArg₂ be16Value (hbyte 0) (hbyte 1)).trans (be16Value_be16 (crc16 pre)), hbyte 2⟩

/-- The first byte of a frame says how long the frame is, where a byte can hold that (42_encoder.md R83). -/
theorem buildFrame_head_toNat {body : List Byte} (h : frameLength body < 256) :
    (byteAt (buildFrame body) 0).toNat = frameLength body := by
  rw [buildFrame_eq, List.cons_append, byteAt_cons_zero, BitVec.toNat_ofNat, Nat.mod_eq_of_lt h]

/-- Between its length byte and its trailer a frame carries its body. -/
theorem buildFrame_body (body : List Byte) : ((buildFrame body).drop 1).take ((buildFrame body).length - 4) = body := by
  rw [buildFrame_length, Nat.add_sub_cancel, buildFrame_eq, List.cons_append, List.drop_one, List.tail_cons,
    List.take_left]

/-- The bodies whose frames have an accepted length (42_encoder.md R84). -/
theorem lengthOk_frameLength_iff {body : List Byte} :
    LengthOk (frameLength body) ↔ 1 ≤ body.length ∧ body.length ≤ 124 ∧ body.length ≠ 122 := by
  rw [lengthOk_iff, frameLength_eq]
  omega

/-- The texts whose frames have an accepted length (42_encoder.md R89). -/
theorem lengthOk_displayText_iff {text : List Byte} :
    LengthOk (frameLength (messageBody (.displayText text))) ↔ text.length ≤ 122 ∧ text.length ≠ 120 := by
  have hlen : (messageBody (.displayText text)).length = text.length + 2 := rfl
  rw [lengthOk_frameLength_iff, hlen]
  omega

/-- A built frame is valid exactly where the encoder accepts its length (41_decoder.md R63, 42_encoder.md R84). -/
theorem validFrame_buildFrame_iff {body : List Byte} :
    ValidFrame (buildFrame body) ↔ LengthOk (frameLength body) := by
  have hlen : (buildFrame body).length = frameLength body := buildFrame_length body
  constructor
  · intro h
    have hsync : frameLength body ≠ 126 := hlen ▸ h.length_ne_sync
    obtain ⟨-, -, hmin, hmax, -⟩ := h
    rw [hlen] at hmin hmax
    exact ⟨hmin, hmax, hsync⟩
  · rintro ⟨hmin, hmax, hsync⟩
    have hhead := buildFrame_head_toNat (hmax.trans_lt (by decide))
    obtain ⟨hcrc, hend⟩ := buildFrame_trailer body
    rw [ValidFrame, hlen]
    exact ⟨Nat.succ_le_of_lt (Nat.lt_of_lt_of_le (by decide) hmin), hhead, hmin, hmax,
      fun h => hsync (by rw [← hhead, h]), hend, hcrc.symm⟩

end Sys2Proof.Machine
end

section
/-! SUPPORT. Frames pushed into a decoder that holds no byte (41_decoder.md R71, 42_encoder.md R96). -/

namespace Sys2Proof.Machine

/-- Bytes for which RXBUF has room, pushed one by one at a command boundary, leave the block where one run over all of
them does (41_decoder.md R74, R77). -/
theorem RunsTo.pushAll {p : Params} {k : Block} {bytes : List Byte} (hq : Quiescent p k)
    (hroom : k.rxBuf.length + bytes.length ≤ p.bufCap) :
    RunsTo p k (pushAll bytes) (decRun p (feed k bytes)) (List.replicate bytes.length ⟨.ok, .none⟩) := by
  have hpush (q : List Byte) (b : Byte) (h : q.length < bytes.length) :
      RunsTo p (decRun p (feed k q)) [.rxPush b] (decRun p (feed k (q ++ [b]))) [⟨.ok, .none⟩] := by
    have hle : (decRun p (feed k q)).rxBuf.length ≤ k.rxBuf.length + q.length :=
      (decRun_rxBuf_length_le p _).trans_eq List.length_append
    have hrule : ruleOf (.rxPush b) p (decRun p (feed k q)) = .ok (feed (decRun p (feed k q)) [b], .none) :=
      rxPushRule_of_room b (by omega)
    have hnext : decRun p (feed (decRun p (feed k q)) [b]) = decRun p (feed k (q ++ [b])) := by
      rw [decRun_feed_decRun, feed_feed]
    exact hnext ▸ .of_rule hrule
  have hall := RunsTo.map (block := fun q => decRun p (feed k q)) hpush
  rwa [feed_nil, decRun_of_quiescent hq] at hall

theorem ValidFrame.length_le {f : List Byte} (h : ValidFrame f) : f.length ≤ Config.messageMax := by
  obtain ⟨-, -, -, hmax, -⟩ := h
  exact hmax

/-- A valid frame pushed into a decoder without bytes and with room in FQ comes out as itself. -/
theorem RunsTo.pushFrame {p : Params} {k : Block} {f : List Byte} (hf : ValidFrame f) (hp : p.Ok)
    (hempty : k.rxBuf = []) (hroom : k.fq.length ≠ p.fqDepth) :
    RunsTo p k (Machine.pushAll f) { k with fq := k.fq ++ [f] } (List.replicate f.length ⟨.ok, .none⟩) := by
  have hpush := RunsTo.pushAll (bytes := f) (quiescent_of_empty (p := p) hempty)
    (by rw [hempty, List.length_nil, Nat.zero_add]; exact hf.length_le.trans hp.1)
  have hbuf : (feed k f).rxBuf = f ++ [] := by rw [feed_rxBuf, hempty, List.nil_append, List.append_nil]
  have hrun : decRun p (feed k f) = { k with fq := k.fq ++ [f] } := by
    rw [(decoderEmitsAValidFrame p (feed k f) f [] hf hbuf hroom).2, decRun_of_quiescent (quiescent_of_empty rfl),
      ← hempty]
    rfl
  rwa [hrun] at hpush

theorem pushAll_append (q q' : List Byte) : pushAll (q ++ q') = pushAll q ++ pushAll q' :=
  List.map_append

/-- Valid frames for all of which FQ has room come out as themselves, in their order (42_encoder.md R96). -/
theorem RunsTo.pushFrames {p : Params} {k : Block} {frames : List (List Byte)}
    (hframes : ∀ f ∈ frames, ValidFrame f) (hp : p.Ok) (hempty : k.rxBuf = [])
    (hroom : k.fq.length + frames.length ≤ p.fqDepth) :
    RunsTo p k (Machine.pushAll frames.flatten) { k with fq := k.fq ++ frames }
      (List.replicate frames.flatten.length ⟨.ok, .none⟩) := by
  induction frames generalizing k with
  | nil =>
    intro port responses
    simp [Machine.pushAll, runCommands]
  | cons f frames ih =>
    obtain ⟨hf, hframes⟩ := List.forall_mem_cons.mp hframes
    rw [List.length_cons] at hroom
    have hfirst := RunsTo.pushFrame hf hp hempty (by omega)
    have hothers := ih (k := { k with fq := k.fq ++ [f] }) hframes hempty
      (by simp only [List.length_append, List.length_singleton]; omega)
    have hall := hfirst.append hothers
    rwa [← pushAll_append, List.replicate_append_replicate, ← List.length_append, List.append_assoc] at hall

end Sys2Proof.Machine
end

section
/-! SUPPORT. The frames the encoder's commands append to TXQ (42_encoder.md sections 2 and 3). -/

namespace Sys2Proof.Machine

/-- The body of BuzzerPlay carries its operand byte, which is 0 or 1 (42_encoder.md R90). -/
theorem messageBody_buzzerPlay {c : Byte} (h : c ≤ 1) : messageBody (.buzzerPlay (c = 1)) = [14, c] := by
  revert c
  decide

/-- The body of BuzzerToneQueue, byte by byte (42_encoder.md R91). -/
theorem messageBody_buzzerToneQueue (w3 w2 w1 w0 h1 h0 : Byte) :
    messageBody (.buzzerToneQueue (w3 ++ w2 ++ w1 ++ w0) (h1 ++ h0)) = [15, 8, w0, w1, w2, w3, h0, h1, h0, h1] := by
  obtain ⟨-, -, -, -, -, -, hbody, -⟩ := messagesFollowTheirLayouts
  exact hbody w3 w2 w1 w0 h1 h0

/-- The frames of a command's bodies, in order. -/
abbrev encodedFrames (k : Block) (i : Instr) : List (List Byte) := (encodedBodies k i).map buildFrame

/-- An encoder command that responds has appended its frames to TXQ as a whole (42_encoder.md R85). -/
theorem Responds.txq_eq_frames {p : Params} {k k' : Block} {i : Instr} {d : RespData} (h : Responds p k i k' d)
    (hi : encodedBodies k i ≠ []) : k'.txq = k.txq ++ (encodedFrames k i).flatten := by
  cases h with
  | nop | softReset | regRead | crcInit | crcByte | crcRead | rxPush | rxPop | stgPut | stgClear | txPull =>
    exact absurd rfl hi
  | encSend | encDisplayText | encBuzzerQueue => exact congrArg (k.txq ++ ·) List.flatten_singleton.symm
  | encBuzzerPlay flag =>
    rw [messageBody_buzzerPlay flag]
    exact congrArg (k.txq ++ ·) List.flatten_singleton.symm
  | encBeep =>
    have hpair (q q' : List Byte) : q ++ q' = [q, q'].flatten := by simp
    exact congrArg (k.txq ++ ·) (hpair _ _)

/-- A BuzzerPlay frame has 6 bytes. -/
theorem lengthOk_buzzerPlay (c : Byte) : LengthOk (frameLength [14, c]) :=
  (by decide : LengthOk 6)

/-- A BuzzerToneQueue frame has 14 bytes. -/
theorem lengthOk_buzzerToneQueue (cycles : Word) (half : Half) :
    LengthOk (frameLength (messageBody (.buzzerToneQueue cycles half))) :=
  (by decide : LengthOk 14)

/-- Each body of a command that responds has an accepted length (42_encoder.md R84). -/
theorem Responds.lengthOk {p : Params} {k k' : Block} {i : Instr} {d : RespData} (h : Responds p k i k' d) :
    ∀ body ∈ encodedBodies k i, LengthOk (frameLength body) := by
  cases h with
  | nop | softReset | regRead | crcInit | crcByte | crcRead | rxPush | rxPop | stgPut | stgClear | txPull =>
    exact nofun
  | encSend length | encDisplayText length => exact List.forall_mem_singleton.mpr length
  | encBuzzerPlay => exact List.forall_mem_singleton.mpr (lengthOk_buzzerPlay _)
  | encBuzzerQueue => exact List.forall_mem_singleton.mpr (lengthOk_buzzerToneQueue _ _)
  | encBeep =>
    exact List.forall_mem_cons.mpr
      ⟨lengthOk_buzzerToneQueue _ _, List.forall_mem_singleton.mpr (lengthOk_buzzerPlay 1)⟩

/-- Each frame that a command appends is valid (42_encoder.md R96). -/
theorem Responds.validFrame {p : Params} {k k' : Block} {i : Instr} {d : RespData} (h : Responds p k i k' d) :
    ∀ f ∈ encodedFrames k i, ValidFrame f :=
  List.forall_mem_map.mpr fun body hbody => validFrame_buildFrame_iff.mpr (h.lengthOk body hbody)

/-- An encoder command that is refused does not answer E_OK (60_exceptions.md R101). -/
theorem ruleOf_ne_error_ok {i : Instr} {p : Params} {k : Block} (hi : encodedBodies k i ≠ []) :
    ruleOf i p k ≠ .error .ok := by
  have happend (q stg : List Byte) : txAppend p k q stg ≠ .error .ok := by
    unfold txAppend
    split <;> nofun
  have hguard {c : Prop} [Decidable c] {x : Performed} {e : Status} (hx : x ≠ .error .ok) (he : e ≠ .ok) :
      (if c then x else raise e) ≠ .error .ok := by
    split
    · exact hx
    · exact fun h => he (Except.error.inj h)
  cases i with
  | encSend | encDisplayText | encBuzzerPlay => exact hguard (happend _ _) nofun
  | encBuzzerQueue | encBeep => exact happend _ _
  | _ => exact absurd rfl hi

/-- A command that answers E_OK has not been refused. -/
theorem responds_of_answers_ok {i : Instr} {s t : State} (hi : encodedBodies s.block i ≠ []) (h : exec i s = .next t)
    (hok : t.responses = s.responses ++ [⟨.ok, .none⟩]) :
    ∃ k d, Responds s.params s.block i k d ∧ t = afterCommand s (decRun s.params k) d := by
  obtain ⟨e, hrule, rfl⟩ | ⟨k, d, hrule, rfl⟩ := exec_cases h
  · obtain rfl : e = .ok := by simpa using hok
    exact absurd hrule (ruleOf_ne_error_ok hi)
  · exact ⟨k, d, responds_of_ruleOf hrule, rfl⟩

end Sys2Proof.Machine
end

section
/-! SUPPORT. The rules of the commands that write TXQ, in each of their cases (42_encoder.md sections 3 and 4). -/

namespace Sys2Proof.Machine

/-- The rule that ENC_SEND and ENC_DISPLAY_TEXT share: the frame of a body enters TXQ and STG is emptied. -/
def transmitBody (p : Params) (k : Block) (body : List Byte) : Performed :=
  if LengthOk (frameLength body) then txAppend p k (buildFrame body) [] else raise .badLength

theorem encSendRule_eq (p : Params) (k : Block) : encSendRule p k = transmitBody p k k.stg := rfl

theorem encDisplayTextRule_eq (p : Params) (k : Block) :
    encDisplayTextRule p k = transmitBody p k (messageBody (.displayText k.stg)) := rfl

/-- The length is checked before the room (42_encoder.md R84). -/
theorem transmitBody_of_badLength {p : Params} {k : Block} {body : List Byte} (h : ¬LengthOk (frameLength body)) :
    transmitBody p k body = .error .badLength :=
  if_neg h

/-- A frame of an accepted length that does not fit TXQ (42_encoder.md R85). -/
theorem transmitBody_of_full {p : Params} {k : Block} {body : List Byte} (hlen : LengthOk (frameLength body))
    (hfull : p.txCap < k.txq.length + frameLength body) : transmitBody p k body = .error .txFull :=
  (if_pos hlen).trans (txAppend_of_full (hfull.trans_eq (congrArg _ (buildFrame_length body).symm)))

/-- With a flag that is 0 or 1, ENC_BUZZER_PLAY is an append of one frame (42_encoder.md R90). -/
theorem encBuzzerPlayRule_of_flag {p : Params} {k : Block} {c : Byte} (h : c ≤ 1) :
    encBuzzerPlayRule c p k = txAppend p k (buildFrame [14, c]) k.stg := by
  rw [encBuzzerPlayRule, if_pos h, messageBody_buzzerPlay h]

theorem txPullRule_of_empty (p : Params) {k : Block} (h : k.txq = []) : txPullRule p k = .error .txEmpty := by
  simp [txPullRule, h, raise]

theorem txPullRule_of_cons (p : Params) {k : Block} {b : Byte} {rest : List Byte} (h : k.txq = b :: rest) :
    txPullRule p k = .ok ({ k with txq := rest }, .byte b) := by
  simp [txPullRule, h, respond]

end Sys2Proof.Machine
end

section
/-! SUPPORT. What a word of the opcodes of ENC_BUZZER_PLAY, ENC_BUZZER_QUEUE and ENC_BEEP does (30_encoding.md R37 to
R40). -/

namespace Sys2Proof.Machine

/-- A word with a reserved field set is refused. -/
theorem step_of_reserved {s : State} {cw : CmdWord} {rest : List CmdWord} (hport : s.port = cw :: rest)
    (h : ReservedFieldSet cw) : step s = .next (afterRefusal s .rsvd) :=
  step_of_decode_error hport (decode_of_reserved h)

/-- A word that encodes a well-formed command performs it. -/
theorem step_of_encode {i : Instr} (hwf : wellFormed i = true) {s : State} {cw : CmdWord} {rest : List CmdWord}
    (hport : s.port = cw :: rest) (h : encode i = cw) : step s = exec i s :=
  step_of_decode_ok hport (decode_eq_ok_iff.mpr ⟨hwf, h⟩)

/-- The opcodes of the commands that use the whole of H and W and not A (30_encoding.md R39). -/
abbrev wideOpcodes : List Byte := [0x35, 0x36]

/-- A command of a cycle count and a half-period is performed with what stands in W and H. -/
theorem step_of_wideOpcode {cmd : Word → Half → Instr} {op : Byte} (hwf : ∀ w h, wellFormed (cmd w h) = true)
    (hencode : ∀ w h, encode (cmd w h) = packWord op 0 h w) (hwide : op ∈ wideOpcodes) {s : State} {cw : CmdWord}
    {rest : List CmdWord} (hport : s.port = cw :: rest) (hop : opField cw = op) :
    (aField cw = 0 → step s = exec (cmd (wField cw) (hField cw)) s) ∧
    (aField cw ≠ 0 → step s = .next (afterRefusal s .rsvd)) := by
  subst hop
  refine ⟨fun ha => step_of_encode (hwf _ _) hport ?_, fun ha => step_of_reserved hport ?_⟩
  · rw [hencode, ← ha, packWord_fields]
  · exact .inr (.inr (.inr ⟨hwide, ha⟩))

/-- ENC_BUZZER_PLAY is performed with the byte that stands in A, if it is 0 or 1 (30_encoding.md R40). -/
theorem step_of_buzzerPlayOpcode {s : State} {cw : CmdWord} {rest : List CmdWord} (hport : s.port = cw :: rest)
    (hop : opField cw = 0x34) :
    (aField cw ≤ 1 ∧ hField cw = 0 ∧ wField cw = 0 → step s = exec (.encBuzzerPlay (aField cw)) s) ∧
    (¬(aField cw ≤ 1 ∧ hField cw = 0 ∧ wField cw = 0) → step s = .next (afterRefusal s .rsvd)) := by
  constructor
  · rintro ⟨ha, hh, hw⟩
    have hencode : encode (.encBuzzerPlay (aField cw)) = cw := by
      conv_rhs => rw [← packWord_fields cw, hop, hh, hw]
      rfl
    exact step_of_encode (i := .encBuzzerPlay (aField cw)) (decide_eq_true ha) hport hencode
  · intro hset
    have hreserved : 1 < aField cw ∨ hField cw ≠ 0 ∨ wField cw ≠ 0 := by
      simpa only [not_and_or, BitVec.not_le] using hset
    exact step_of_reserved hport (.inr (.inr (.inl ⟨hop, hreserved⟩)))

end Sys2Proof.Machine
end

section
/-! SUPPORT. The host-side tone operands in exact arithmetic (42_encoder.md R94). -/

namespace Sys2Proof.Machine

/-- The half-period is a u16 exactly for frequencies above 1000000 / 131072 Hz. -/
theorem halfPeriod_fits_iff {freq : ℚ} (h : 0 < freq) :
    (1000000 / freq).floor / 2 ≤ 65535 ↔ 1000000 / 131072 < freq := by
  calc (1000000 / freq).floor / 2 ≤ 65535
    _ ↔ (1000000 / freq).floor < 131072 := by omega
    _ ↔ 1000000 / freq < 131072 := Int.floor_lt (a := 1000000 / freq) (z := 131072)
    _ ↔ 1000000 < 131072 * freq := div_lt_iff₀ h
    _ ↔ 1000000 / 131072 < freq := (div_lt_iff₀' (by norm_num)).symm

/-- Operands that fit their fields are carried there as they are. -/
theorem toneFields_of_fits {product quotient : ℚ} (hcycles : max 1 product.floor ≤ 2 ^ 32 - 1)
    (hquotient : 0 ≤ quotient) (hhalf : quotient.floor / 2 ≤ 65535) :
    ∃ (cycles : Word) (half : Half), toneFields product quotient = .ok (cycles, half) ∧
      (cycles.toNat : Int) = max 1 product.floor ∧ (half.toNat : Int) = quotient.floor / 2 := by
  have hfloor : 0 ≤ quotient.floor := Int.floor_nonneg.mpr hquotient
  have hpos : 1 ≤ max 1 product.floor := le_max_left _ _
  simp only [toneFields]
  generalize max 1 product.floor = c at hcycles hpos
  generalize quotient.floor = q at hhalf hfloor
  rw [if_neg (by omega), if_neg (by omega)]
  refine ⟨_, _, rfl, ?_, ?_⟩
  · rw [BitVec.toNat_ofNat, Nat.mod_eq_of_lt (by omega)]
    omega
  · rw [BitVec.toNat_ofNat, Nat.mod_eq_of_lt (by omega)]
    omega

end Sys2Proof.Machine
end

section
/-! The statements about the encoder and the transmit port (42_encoder.md). -/

namespace Sys2Proof.Machine

/-- Settles O56: a performed command has appended the frames of its bodies, each valid; a valid frame pushed into an
empty RXBUF is emitted at its last byte and leaves RXBUF empty for the next. -/
theorem encodedFramesDecodeToThemselves : Obligations.EncodedFramesDecodeToThemselves := by
  intro s t i hi h hok
  obtain ⟨k, d, hk, rfl⟩ := responds_of_answers_ok hi h hok
  refine ⟨?_, fun body _ => buildFrame_body body, fun ⟨k', p, port, responses⟩ hp hempty hroom => ?_⟩
  · rw [afterCommand_block, decRun_txq, hk.txq_eq_frames hi]
  · exact ⟨_, RunsTo.pushFrames hk.validFrame hp hempty (by rwa [List.length_map]) port responses, rfl⟩

/-- Settles O35: the commands with bodies append their frames, and of the others only TX_PULL and SOFT_RESET write
TXQ; the decoder's run leaves it. -/
theorem txqGainsOnlyWholeFrames : Obligations.TxqGainsOnlyWholeFrames := by
  intro s t h
  obtain rfl | ⟨e, rfl⟩ | ⟨i, k, d, hk, rfl⟩ := step_responds h
  · exact .inl rfl
  · exact .inl rfl
  · rw [afterCommand_block, decRun_txq]
    by_cases hi : encodedBodies s.block i = []
    · cases hk with
      | softReset => exact .inr (.inr (.inl (decRun_of_quiescent (quiescent_reset _))))
      | txPull txq_eq => exact .inr (.inl ⟨_, txq_eq⟩)
      | encSend | encDisplayText | encBuzzerPlay | encBuzzerQueue | encBeep => cases hi
      | nop | regRead | crcInit | crcByte | crcRead | rxPush | rxPop | stgPut | stgClear => exact .inl rfl
    · exact .inr (.inr (.inr ⟨_, by simpa using hi, hk.validFrame, hk.txq_eq_frames hi⟩))

/-- Settles O55: within the body's bounds the length byte holds the length, and 126 is the one length in range that
the encoder does not accept. -/
theorem encoderBuildsValidFrames : Obligations.EncoderBuildsValidFrames := by
  intro body hmin hmax
  have hlen : frameLength body < 256 := (Nat.add_le_add_right hmax 4).trans_lt (by decide)
  refine ⟨buildFrame_head_toNat hlen, buildFrame_length body, buildFrame_eq body, ?_⟩
  rw [validFrame_buildFrame_iff, lengthOk_frameLength_iff]
  exact ⟨fun ⟨_, _, hsync⟩ => hsync, fun hsync => ⟨hmin, hmax, hsync⟩⟩

/-- Settles O59: the half-period fits where the quotient is below 131072, and what fits a field is carried in it
unchanged. -/
theorem toneOperandsFollowTheDerivation : Obligations.ToneOperandsFollowTheDerivation := by
  refine ⟨fun freq h => halfPeriod_fits_iff h, fun freq duration h hcycles => ?_,
    fun arith freq duration => toneOperands_of_not_positive⟩
  have hpos : 0 < freq := lt_trans (by norm_num) h
  rw [toneOperands_exact hpos]
  exact toneFields_of_fits hcycles (by positivity) ((halfPeriod_fits_iff hpos).mpr h)

/-- Settles O9: the byte stands in A, and the rule tests the room first. -/
theorem stgPutAppendsToStaging : Obligations.StgPutAppendsToStaging :=
  ⟨fun _ _ _ => step_of_byteOpcode (cmd := .stgPut) (op := 0x30) (fun _ => rfl) (fun _ => rfl) (by decide),
    fun _ _ hq hroom => exec_of_ok_quiescent (quiescent_congr rfl rfl hq) (if_neg hroom),
    fun _ _ hfull => exec_of_error (if_pos hfull)⟩

/-- Settles O10: the rule writes STG alone, which gives a quiescent decoder nothing to do. -/
theorem stgClearEmptiesStaging : Obligations.StgClearEmptiesStaging :=
  ⟨fun _ _ _ => step_of_bareOpcode (i := .stgClear) (op := 0x31) rfl rfl (by decide),
    fun _ hq => exec_of_ok_quiescent (quiescent_congr rfl rfl hq) rfl⟩

/-- Settles O11: the body is STG, whose length is checked before the room. -/
theorem encSendTransmitsTheStagedBody : Obligations.EncSendTransmitsTheStagedBody := by
  refine ⟨fun _ _ _ => step_of_bareOpcode (i := .encSend) (op := 0x32) rfl rfl (by decide),
    fun s hq hmin hmax hsync hroom => ?room, fun s hbad => ?badLength, fun s hmin hmax hsync hfull => ?full⟩
  case room =>
    have hlen := lengthOk_frameLength_iff.mpr ⟨hmin, hmax, hsync⟩
    exact exec_of_ok_quiescent (quiescent_congr rfl rfl hq) (encSendRule_of_fits hlen (by simpa using hroom))
  case badLength =>
    have hlen : ¬LengthOk (frameLength s.block.stg) := by rw [lengthOk_frameLength_iff]; omega
    exact exec_of_error ((encSendRule_eq _ _).trans (transmitBody_of_badLength hlen))
  case full =>
    have hlen := lengthOk_frameLength_iff.mpr ⟨hmin, hmax, hsync⟩
    exact exec_of_error ((encSendRule_eq _ _).trans (transmitBody_of_full hlen hfull))

/-- Settles O12: two bytes stand before the text in the body, so the text's bounds are two less than a body's. -/
theorem encDisplayTextTransmitsTheStagedText : Obligations.EncDisplayTextTransmitsTheStagedText := by
  refine ⟨fun _ _ _ => step_of_bareOpcode (i := .encDisplayText) (op := 0x33) rfl rfl (by decide),
    fun s hq hmax hsync hroom => ?room, fun s hbad => ?badLength, fun s hmax hsync hfull => ?full⟩
  case room =>
    have hlen := lengthOk_displayText_iff.mpr ⟨hmax, hsync⟩
    have hfits : Fits s.params s.block (buildFrame (messageBody (.displayText s.block.stg))) := by
      simpa [messageBody, messageArgs] using hroom
    exact exec_of_ok_quiescent (quiescent_congr rfl rfl hq) (encDisplayTextRule_of_fits hlen hfits)
  case badLength =>
    have hlen : ¬LengthOk (frameLength (messageBody (.displayText s.block.stg))) := by
      rw [lengthOk_displayText_iff]; omega
    exact exec_of_error ((encDisplayTextRule_eq _ _).trans (transmitBody_of_badLength hlen))
  case full =>
    have hlen := lengthOk_displayText_iff.mpr ⟨hmax, hsync⟩
    exact exec_of_error ((encDisplayTextRule_eq _ _).trans (transmitBody_of_full hlen hfull))

/-- Settles O13: A holds the flag; a flag above 1 is refused before the append. -/
theorem encBuzzerPlayTransmitsItsFrame : Obligations.EncBuzzerPlayTransmitsItsFrame :=
  ⟨fun _ _ _ => step_of_buzzerPlayOpcode,
    fun _ _ hq hflag hroom => exec_of_ok_quiescent (quiescent_congr rfl rfl hq)
      ((encBuzzerPlayRule_of_flag hflag).trans (txAppend_of_room hroom)),
    fun _ _ hflag hfull => exec_of_error ((encBuzzerPlayRule_of_flag hflag).trans (txAppend_of_full hfull)),
    fun _ _ hflag => exec_of_error (if_neg (BitVec.not_le.mpr hflag))⟩

/-- Settles O14: the args are the operands low byte first, in a frame of 14 bytes. -/
theorem encBuzzerQueueTransmitsItsFrame : Obligations.EncBuzzerQueueTransmitsItsFrame := by
  refine ⟨fun _ _ _ => step_of_wideOpcode (cmd := .encBuzzerQueue) (op := 0x35) (fun _ _ => rfl) (fun _ _ => rfl)
    (by decide), fun s w3 w2 w1 w0 h1 h0 hq hroom => ?_,
    fun s cycles half hfull => exec_of_error (txAppend_of_full hfull)⟩
  rw [← messageBody_buzzerToneQueue]
  exact exec_of_ok_quiescent (quiescent_congr rfl rfl hq) (txAppend_of_room hroom)

/-- Settles O15: both frames are one append of 20 bytes. -/
theorem encBeepTransmitsBothFrames : Obligations.EncBeepTransmitsBothFrames := by
  refine ⟨fun _ _ _ => step_of_wideOpcode (cmd := .encBeep) (op := 0x36) (fun _ _ => rfl) (fun _ _ => rfl)
    (by decide), fun s w3 w2 w1 w0 h1 h0 hq hroom => ?_,
    fun s cycles half hfull => exec_of_error (txAppend_of_full hfull)⟩
  rw [← messageBody_buzzerToneQueue]
  exact exec_of_ok_quiescent (quiescent_congr rfl rfl hq) (txAppend_of_room hroom)

/-- Settles O16: the rule splits on whether TXQ has a head byte. -/
theorem txPullTakesTheNextByte : Obligations.TxPullTakesTheNextByte :=
  ⟨fun _ _ _ => step_of_bareOpcode (i := .txPull) (op := 0x40) rfl rfl (by decide),
    fun s _ _ hq htxq => exec_of_ok_quiescent (quiescent_congr rfl rfl hq) (txPullRule_of_cons s.params htxq),
    fun s hempty => exec_of_error (txPullRule_of_empty s.params hempty)⟩

end Sys2Proof.Machine
end

section
/-! SUPPORT. The registers of the view (10_state.md R21), and what REG_READ answers of them (43_control.md R99). -/

namespace Sys2Proof.Machine

/-- The registers that hold a quantity, by index: all but HEAD_LEN (10_state.md R21). -/
abbrev registerQuantities (p : Params) (k : Block) : List (Nat × Nat) :=
  [(0, k.rxBuf.length), (1, k.fq.length), (3, k.txq.length), (4, k.stg.length), (5, k.crcErrCnt.toNat),
    (6, p.bufCap), (7, p.fqDepth), (8, p.txCap)]

/-- A quantity that fits 32 bits reads as itself. -/
theorem word32_of_lt {n : Nat} (h : n < 2 ^ 32) : word32 n = BitVec.ofNat 32 n := if_pos h

/-- CRC_ERR_CNT is a word already. -/
theorem word32_toNat (w : Word) : word32 w.toNat = w := by
  rw [word32_of_lt w.isLt, BitVec.ofNat_toNat, BitVec.setWidth_eq]

theorem registerView_of_quantity {p : Params} {k : Block} {idx : Byte} {n : Nat}
    (h : (idx.toNat, n) ∈ registerQuantities p k) : registerView p k idx = some (word32 n) := by
  simp only [List.mem_cons, List.not_mem_nil, or_false, Prod.mk.injEq] at h
  rcases h with ⟨h, rfl⟩ | ⟨h, rfl⟩ | ⟨h, rfl⟩ | ⟨h, rfl⟩ | ⟨h, rfl⟩ | ⟨h, rfl⟩ | ⟨h, rfl⟩ | ⟨h, rfl⟩ <;>
    simp only [registerView, h, word32_toNat]

/-- Register 2 is HEAD_LEN. -/
theorem registerView_two (p : Params) (k : Block) : registerView p k 2 = some ((headLength k).setWidth 32) := rfl

theorem headLength_of_empty {k : Block} (h : k.fq = []) : headLength k = 0 := by
  simp [headLength, h]

theorem headLength_of_cons {k : Block} {len : Byte} {f : List Byte} {rest : List (List Byte)}
    (h : k.fq = (len :: f) :: rest) : headLength k = len := by
  simp [headLength, h]

/-- The registers end at index 8. -/
theorem registerView_eq_none_iff {p : Params} {k : Block} {idx : Byte} : registerView p k idx = none ↔ 8 < idx := by
  have hlt : 8 < idx ↔ 8 < idx.toNat := BitVec.lt_def
  rw [hlt, registerView]
  split
  case h_10 => simp only [imp_false, true_iff] at *; omega
  all_goals simp only [reduceCtorEq, false_iff]; omega

/-- After reset every level, HEAD_LEN and CRC_ERR_CNT are 0. -/
theorem registerView_reset (p : Params) {idx : Byte} (h : idx ≤ 5) : registerView p Block.reset idx = some 0 := by
  have hle : idx.toNat ≤ 5 := BitVec.le_def.mp h
  by_cases htwo : idx = 2
  · rw [htwo, registerView_two, headLength_of_empty rfl]
    rfl
  · have hne : idx.toNat ≠ 2 := fun heq => htwo (BitVec.eq_of_toNat_eq heq)
    obtain hidx | hidx | hidx | hidx | hidx : idx.toNat = 0 ∨ idx.toNat = 1 ∨ idx.toNat = 3 ∨ idx.toNat = 4 ∨
      idx.toNat = 5 := by omega
    all_goals exact registerView_of_quantity (n := 0) (by simp [hidx, Block.reset])

/-- REG_READ answers the register and writes no element, so that a quiescent decoder has nothing to do. -/
theorem exec_regRead_of_some {s : State} {idx : Byte} {w : Word} (hq : Quiescent s.params s.block)
    (h : registerView s.params s.block idx = some w) :
    exec (.regRead idx) s = .next (afterCommand s s.block (.word w)) :=
  exec_of_ok_quiescent hq (regReadRule_of_some h)

end Sys2Proof.Machine
end

section
/-! The statements about the control commands (43_control.md). -/

namespace Sys2Proof.Machine

/-- Settles O1: the rule leaves the block, on which a quiescent decoder has nothing to do. -/
theorem nopAnswersOkAndChangesNothing : Obligations.NopAnswersOkAndChangesNothing :=
  ⟨fun _ _ _ => step_of_bareOpcode (i := .nop) (op := 0x00) rfl rfl (by decide),
    fun _ hq => exec_of_ok_quiescent hq rfl⟩

/-- Settles O2: the rule does not look at the block, and the decoder is quiescent on the reset one, whatever it was
before. -/
theorem softResetRestoresEveryElement : Obligations.SoftResetRestoresEveryElement :=
  have hreset (s : State) : exec .softReset s = .next (afterCommand s Block.reset .none) :=
    exec_of_ok_quiescent (quiescent_reset s.params) rfl
  ⟨fun _ _ _ => step_of_bareOpcode (i := .softReset) (op := 0x01) rfl rfl (by decide), hreset, fun s _ => hreset s⟩

/-- Settles O3: each clause is the value of one register of the view, or that there is none. -/
theorem regReadAnswersTheRegisterView : Obligations.RegReadAnswersTheRegisterView := by
  refine ⟨fun _ _ _ => step_of_byteOpcode (cmd := .regRead) (op := 0x02) (fun _ => rfl) (fun _ => rfl) (by decide),
    fun s idx n hq hquantity hfits => ?quantity, fun s hq hempty => ?noFrame, fun s len f rest hq hfq => ?headFrame,
    fun s idx hq hidx => ?register, fun s idx hidx => ?noRegister, fun p idx hidx => ?atReset⟩
  case quantity => exact exec_regRead_of_some hq (by rw [registerView_of_quantity hquantity, word32_of_lt hfits])
  case noFrame => exact exec_regRead_of_some hq (by rw [registerView_two, headLength_of_empty hempty]; rfl)
  case headFrame =>
    exact exec_regRead_of_some hq (by rw [registerView_two, headLength_of_cons hfq, BitVec.ofNat_toNat])
  case register =>
    have hview : registerView s.params s.block idx ≠ none := fun hnone =>
      absurd (registerView_eq_none_iff.mp hnone) (BitVec.not_lt.mpr hidx)
    obtain ⟨w, hw⟩ := Option.ne_none_iff_exists'.mp hview
    exact ⟨w, exec_regRead_of_some hq hw⟩
  case noRegister => exact exec_of_error (regReadRule_of_none (registerView_eq_none_iff.mpr hidx))
  case atReset => exact exec_regRead_of_some (quiescent_reset p) (registerView_reset p hidx)

end Sys2Proof.Machine
end

section
/-! SUPPORT. What a word answers, as the performance of one rule (30_encoding.md R37). -/

namespace Sys2Proof.Machine

/-- The rule of a word: its command's own where it decodes, and a refusal where it is no command (30_encoding.md R37,
R40, R41). -/
def wordRule (cw : CmdWord) (p : Params) (k : Block) : Performed :=
  match decode cw with
  | .error e => raise (decodeStatus e)
  | .ok i => ruleOf i p k

/-- The status a rule's result is answered with (60_exceptions.md R100, R101). -/
def reported : Performed → Status
  | .error e => e
  | .ok _ => .ok

theorem reported_of_error {x : Performed} {e : Status} (h : x = .error e) : reported x = e := by
  rw [h]
  rfl

theorem wordRule_of_unassigned {cw : CmdWord} (h : opField cw ∉ assignedOpcodes) (p : Params) (k : Block) :
    wordRule cw p k = .error .badOp := by
  rw [wordRule, decode_of_unassigned h]
  rfl

theorem wordRule_of_reserved {cw : CmdWord} (h : ReservedFieldSet cw) (p : Params) (k : Block) :
    wordRule cw p k = .error .rsvd := by
  rw [wordRule, decode_of_reserved h]
  rfl

theorem wordRule_encode {i : Instr} (h : wellFormed i = true) (p : Params) (k : Block) :
    wordRule (encode i) p k = ruleOf i p k := by
  rw [wordRule, decode_encode h]

/-- A word of an assigned opcode with no reserved field set is performed as the command its row of the opcode map builds
(30_encoding.md R37 to R39). -/
theorem wordRule_of_row {cw : CmdWord} {op : Byte} {r : OpcodeRow} (hop : opField cw = op)
    (hrow : opcodeTable.find? (fun q => q.op == op) = some r) (hfree : ¬ReservedFieldSet cw) (p : Params) (k : Block) :
    wordRule cw p k = ruleOf (r.build (aField cw) (hField cw) (wField cw)) p k := by
  have hr : r.op = op := by simpa using List.find?_some hrow
  rw [wordRule, decode_of_row (List.mem_of_find?_eq_some hrow) (hop.trans hr.symm), if_neg hfree]

/-- A word has an unassigned opcode, or a reserved field set, or is the encoding of a command (30_encoding.md R39 to
R41). -/
theorem word_cases (cw : CmdWord) :
    opField cw ∉ assignedOpcodes ∨ ReservedFieldSet cw ∨ ∃ i, wellFormed i = true ∧ encode i = cw := by
  by_cases hop : opField cw ∈ assignedOpcodes
  · by_cases hset : ReservedFieldSet cw
    · exact .inr (.inl hset)
    · obtain ⟨i, hdec, -⟩ := decode_of_free hop hset
      exact .inr (.inr ⟨i, decode_eq_ok_iff.mp hdec⟩)
  · exact .inl hop

/-- A step is the performance of its word's rule. -/
theorem step_eq_perform {s : State} {cw : CmdWord} {rest : List CmdWord} (hport : s.port = cw :: rest) :
    step s = perform (wordRule cw) s := by
  cases hdec : decode cw with
  | error e =>
    have hrule : wordRule cw s.params s.block = .error (decodeStatus e) := by
      rw [wordRule, hdec]
      rfl
    rw [step_of_decode_error hport hdec, perform_of_error hrule]
  | ok i =>
    have hrule : wordRule cw = ruleOf i := by
      funext p k
      rw [wordRule, hdec]
    rw [step_of_decode_ok hport hdec, exec_eq_perform, hrule]

/-- Everything a step on a word can do, with the response it gives: the word's rule refuses, or its block is left to the
decoder's run. -/
theorem step_answers {s t : State} {cw : CmdWord} {rest : List CmdWord} {r : Response} (hport : s.port = cw :: rest)
    (h : step s = .next t) (hr : t.responses = s.responses ++ [r]) :
    (∃ e, wordRule cw s.params s.block = .error e ∧ r = ⟨e, .none⟩ ∧ t = afterRefusal s e) ∨
    ∃ k d, wordRule cw s.params s.block = .ok (k, d) ∧ r = ⟨.ok, d⟩ ∧ t = afterCommand s (decRun s.params k) d := by
  rw [step_eq_perform hport] at h
  obtain ⟨e, hrule, rfl⟩ | ⟨k, d, hrule, rfl⟩ := perform_cases h
  · exact .inl ⟨e, hrule, by simpa using hr.symm, rfl⟩
  · exact .inr ⟨k, d, hrule, by simpa using hr.symm, rfl⟩

/-- A word's response carries the status of its rule's result. -/
theorem step_reports {s t : State} {cw : CmdWord} {rest : List CmdWord} {r : Response} (hport : s.port = cw :: rest)
    (h : step s = .next t) (hr : t.responses = s.responses ++ [r]) :
    r.status = reported (wordRule cw s.params s.block) := by
  obtain ⟨e, hrule, rfl, -⟩ | ⟨k, d, hrule, rfl, -⟩ := step_answers hport h hr
  · exact (reported_of_error hrule).symm
  · rw [hrule]
    rfl

end Sys2Proof.Machine
end

section
/-! SUPPORT. The status a refused word is answered with has its cause in the table of 60_exceptions.md R102. -/

namespace Sys2Proof.Machine

/-- The causes of E_LEN are the lengths the encoder does not accept (60_exceptions.md R102, 42_encoder.md R84). -/
theorem badFrameLength_iff {n : Nat} : BadFrameLength n ↔ ¬LengthOk n := by
  rw [BadFrameLength, lengthOk_iff]
  omega

/-- `tx_append` is refused for want of room only (42_encoder.md R85). -/
theorem txAppend_error {p : Params} {k : Block} {q stg : List Byte} {e : Status} (h : txAppend p k q stg = .error e) :
    e = .txFull ∧ p.txCap < k.txq.length + q.length := by
  by_cases hroom : Fits p k q
  · rw [txAppend_of_room hroom] at h
    cases h
  · have hfull := Nat.not_le.mp hroom
    rw [txAppend_of_full hfull] at h
    exact ⟨(Except.error.inj h).symm, hfull⟩

/-- ENC_SEND and ENC_DISPLAY_TEXT are refused for the length of their frame or for want of room (42_encoder.md R88,
R89). -/
theorem transmitBody_error {p : Params} {k : Block} {body : List Byte} {e : Status}
    (h : transmitBody p k body = .error e) :
    e = .badLength ∧ BadFrameLength (frameLength body) ∨
    e = .txFull ∧ p.txCap < k.txq.length + frameLength body := by
  by_cases hlen : LengthOk (frameLength body)
  · rw [transmitBody, if_pos hlen] at h
    rw [frameLength_eq, ← buildFrame_length]
    exact .inr (txAppend_error h)
  · rw [transmitBody_of_badLength hlen] at h
    exact .inl ⟨(Except.error.inj h).symm, badFrameLength_iff.mpr hlen⟩

theorem opField_encode (i : Instr) : opField (encode i) = opcodeOf i := opField_packWord ..

theorem aField_encode (i : Instr) : aField (encode i) = aOperand i := aField_packWord ..

/-- A command is refused for a cause of the status table, and never with E_OK (60_exceptions.md R102). -/
theorem statusCause_of_ruleOf_error {i : Instr} {p : Params} {k : Block} {e : Status} (hwf : wellFormed i = true)
    (h : ruleOf i p k = .error e) : StatusCause p k (encode i) e ∧ e ≠ .ok := by
  cases i with
  | nop | softReset | crcInit | crcByte | crcRead | stgClear => cases h
  | regRead idx =>
    cases hview : registerView p k idx with
    | none =>
      rw [ruleOf, regReadRule_of_none hview] at h
      cases h
      exact ⟨⟨opField_encode _, by rw [aField_encode]; exact registerView_eq_none_iff.mp hview⟩, nofun⟩
    | some w =>
      rw [ruleOf, regReadRule_of_some hview] at h
      cases h
  | rxPush b =>
    simp only [ruleOf, rxPushRule] at h
    split at h <;> cases h
    exact ⟨⟨opField_encode _, ‹_›⟩, nofun⟩
  | rxPop =>
    simp only [ruleOf, rxPopRule] at h
    split at h <;> cases h
    exact ⟨⟨opField_encode _, ‹_›⟩, nofun⟩
  | stgPut b =>
    simp only [ruleOf, stgPutRule] at h
    split at h <;> cases h
    exact ⟨⟨opField_encode _, ‹_›⟩, nofun⟩
  | encSend =>
    obtain ⟨rfl, hlen⟩ | ⟨rfl, hfull⟩ := transmitBody_error h
    · exact ⟨.inl ⟨opField_encode _, hlen⟩, nofun⟩
    · exact ⟨.inl ⟨opField_encode _, hfull⟩, nofun⟩
  | encDisplayText =>
    obtain ⟨rfl, hlen⟩ | ⟨rfl, hfull⟩ := transmitBody_error h
    · exact ⟨.inr ⟨opField_encode _, hlen⟩, nofun⟩
    · exact ⟨.inr (.inl ⟨opField_encode _, hfull⟩), nofun⟩
  | encBuzzerPlay c =>
    rw [ruleOf, encBuzzerPlayRule_of_flag (of_decide_eq_true hwf)] at h
    obtain ⟨rfl, hfull⟩ := txAppend_error h
    exact ⟨.inr (.inr (.inl ⟨opField_encode _, hfull⟩)), nofun⟩
  | encBuzzerQueue cycles half =>
    obtain ⟨rfl, hfull⟩ := txAppend_error h
    exact ⟨.inr (.inr (.inr (.inl ⟨opField_encode _, hfull⟩))), nofun⟩
  | encBeep cycles half =>
    obtain ⟨rfl, hfull⟩ := txAppend_error h
    exact ⟨.inr (.inr (.inr (.inr ⟨opField_encode _, hfull⟩))), nofun⟩
  | txPull =>
    simp only [ruleOf, txPullRule] at h
    split at h <;> cases h
    exact ⟨⟨opField_encode _, ‹_›⟩, nofun⟩

/-- A word is refused for a cause of the status table, and never with E_OK (60_exceptions.md R102). -/
theorem statusCause_of_wordRule_error {cw : CmdWord} {p : Params} {k : Block} {e : Status}
    (h : wordRule cw p k = .error e) : StatusCause p k cw e ∧ e ≠ .ok := by
  obtain hop | hset | ⟨i, hwf, rfl⟩ := word_cases cw
  · cases (wordRule_of_unassigned hop p k).symm.trans h
    exact ⟨hop, nofun⟩
  · cases (wordRule_of_reserved hset p k).symm.trans h
    exact ⟨hset, nofun⟩
  · exact statusCause_of_ruleOf_error hwf ((wordRule_encode hwf p k).symm.trans h)

/-- The status reported for a word has its cause; E_OK's is always there. -/
theorem statusCause_reported (cw : CmdWord) (p : Params) (k : Block) :
    StatusCause p k cw (reported (wordRule cw p k)) := by
  cases hrule : wordRule cw p k with
  | error e => exact (statusCause_of_wordRule_error hrule).left
  | ok kd => trivial

end Sys2Proof.Machine
end

section
/-! SUPPORT. The order of the statuses (60_exceptions.md R103): a word meets at most one at each place, and the first it
meets is reported. -/

namespace Sys2Proof.Machine

/-- The one capacity status a command of an opcode can meet (60_exceptions.md R102, R103); E_TXFULL stands also for the
opcodes that meet none. -/
def capacityStatus (op : Byte) : Status :=
  if op = 0x20 then .rxFull else if op = 0x21 then .fqEmpty else if op = 0x30 then .stgFull
  else if op = 0x40 then .txEmpty else .txFull

/-- The status at each place of the order of 60_exceptions.md R103, for a command of an opcode. -/
def statusAt (op : Byte) : Nat → Status
  | 0 => .badOp
  | 1 => .rsvd
  | 2 => .badReg
  | 3 => .badLength
  | 4 => capacityStatus op
  | _ => .ok

/-- A word's opcode and the place in the order tell which status applies there: no command meets two capacity statuses
(60_exceptions.md R103). -/
theorem statusAt_priority {p : Params} {k : Block} {cw : CmdWord} {e : Status} (h : StatusCause p k cw e) :
    statusAt (opField cw) (statusPriority e) = e := by
  cases e with
  | ok | badOp | rsvd | badReg | badLength => rfl
  | rxFull | fqEmpty | stgFull | txEmpty =>
    obtain ⟨hop, -⟩ := h
    rw [hop]
    rfl
  | txFull =>
    obtain ⟨hop, -⟩ | ⟨hop, -⟩ | ⟨hop, -⟩ | ⟨hop, -⟩ | ⟨hop, -⟩ := h
    all_goals
      rw [hop]
      rfl

/-- No word meets two statuses of one place (60_exceptions.md R103). -/
theorem StatusCause.eq_of_priority_eq {p : Params} {k : Block} {cw : CmdWord} {e e' : Status}
    (h : StatusCause p k cw e) (h' : StatusCause p k cw e')
    (hprio : statusPriority e = statusPriority e') : e = e' := by
  rw [← statusAt_priority h, ← statusAt_priority h', hprio]

/-- E_OK comes last. -/
theorem statusPriority_le_ok (e : Status) : statusPriority e ≤ statusPriority .ok := by
  cases e <;> decide

/-- A command refused for the cause it meets. -/
theorem priority_le_of_error {x : Performed} {e : Status} (h : x = .error e) :
    statusPriority (reported x) ≤ statusPriority e := by
  rw [reported_of_error h]

/-- Where the length of the frame of ENC_SEND or ENC_DISPLAY_TEXT is not accepted, E_LEN is reported. -/
theorem priority_of_badLength {p : Params} {k : Block} {body : List Byte} (h : BadFrameLength (frameLength body)) :
    statusPriority (reported (transmitBody p k body)) ≤ statusPriority .badLength :=
  priority_le_of_error (transmitBody_of_badLength (badFrameLength_iff.mp h))

/-- Where the frame of ENC_SEND or ENC_DISPLAY_TEXT does not fit, E_TXFULL or the earlier E_LEN is reported. -/
theorem priority_of_full {p : Params} {k : Block} {body : List Byte}
    (hfull : p.txCap < k.txq.length + frameLength body) :
    statusPriority (reported (transmitBody p k body)) ≤ statusPriority .txFull := by
  by_cases hlen : LengthOk (frameLength body)
  · exact priority_le_of_error (transmitBody_of_full hlen hfull)
  · rw [reported_of_error (transmitBody_of_badLength hlen)]
    decide

/-- Whatever cause a word with no reserved field set meets, that status or an earlier one is reported: the opcode of the
cause tells the word's rule (60_exceptions.md R102, R103). -/
theorem priority_reported_le_of_free {cw : CmdWord} {p : Params} {k : Block} {e : Status}
    (hfree : ¬ReservedFieldSet cw) (h : StatusCause p k cw e) :
    statusPriority (reported (wordRule cw p k)) ≤ statusPriority e := by
  cases e with
  | ok => exact statusPriority_le_ok _
  | badOp => exact priority_le_of_error (wordRule_of_unassigned h p k)
  | rsvd => exact absurd h hfree
  | badReg =>
    obtain ⟨hop, hidx⟩ := h
    have hrule : wordRule cw p k = regReadRule (aField cw) p k := wordRule_of_row hop rfl hfree p k
    exact priority_le_of_error (hrule.trans (regReadRule_of_none (registerView_eq_none_iff.mpr hidx)))
  | rxFull =>
    obtain ⟨hop, hfull⟩ := h
    have hrule : wordRule cw p k = rxPushRule (aField cw) p k := wordRule_of_row hop rfl hfree p k
    exact priority_le_of_error (hrule.trans (if_pos hfull))
  | fqEmpty =>
    obtain ⟨hop, hempty⟩ := h
    have hrule : wordRule cw p k = rxPopRule p k := wordRule_of_row hop rfl hfree p k
    exact priority_le_of_error (hrule.trans (by rw [rxPopRule, hempty]; rfl))
  | stgFull =>
    obtain ⟨hop, hfull⟩ := h
    have hrule : wordRule cw p k = stgPutRule (aField cw) p k := wordRule_of_row hop rfl hfree p k
    exact priority_le_of_error (hrule.trans (if_pos hfull))
  | txEmpty =>
    obtain ⟨hop, hempty⟩ := h
    have hrule : wordRule cw p k = txPullRule p k := wordRule_of_row hop rfl hfree p k
    exact priority_le_of_error (hrule.trans (txPullRule_of_empty p hempty))
  | badLength =>
    obtain ⟨hop, hlen⟩ | ⟨hop, hlen⟩ := h
    · rw [wordRule_of_row hop rfl hfree]
      exact priority_of_badLength (body := k.stg) hlen
    · rw [wordRule_of_row hop rfl hfree]
      exact priority_of_badLength (body := messageBody (.displayText k.stg)) hlen
  | txFull =>
    obtain ⟨hop, hfull⟩ | ⟨hop, hfull⟩ | ⟨hop, hfull⟩ | ⟨hop, hfull⟩ | ⟨hop, hfull⟩ := h
    · rw [wordRule_of_row hop rfl hfree]
      exact priority_of_full (body := k.stg) hfull
    · rw [wordRule_of_row hop rfl hfree]
      exact priority_of_full (body := messageBody (.displayText k.stg)) hfull
    · have hflag : aField cw ≤ 1 := BitVec.not_lt.mp fun ha => hfree (.inr (.inr (.inl ⟨hop, .inl ha⟩)))
      have hrule : wordRule cw p k = txAppend p k (buildFrame [14, aField cw]) k.stg :=
        (wordRule_of_row hop rfl hfree p k).trans (encBuzzerPlayRule_of_flag hflag)
      exact priority_le_of_error (hrule.trans (txAppend_of_full hfull))
    · have hrule : wordRule cw p k = encBuzzerQueueRule (wField cw) (hField cw) p k :=
        wordRule_of_row hop rfl hfree p k
      exact priority_le_of_error (hrule.trans (txAppend_of_full hfull))
    · have hrule : wordRule cw p k = encBeepRule (wField cw) (hField cw) p k := wordRule_of_row hop rfl hfree p k
      exact priority_le_of_error (hrule.trans (txAppend_of_full hfull))

/-- Whatever cause a word meets, that status or an earlier one is reported (60_exceptions.md R103). -/
theorem priority_reported_le {cw : CmdWord} {p : Params} {k : Block} {e : Status} (h : StatusCause p k cw e) :
    statusPriority (reported (wordRule cw p k)) ≤ statusPriority e := by
  by_cases hset : ReservedFieldSet cw
  · -- E_RSVD is reported, and the only earlier status needs an unassigned opcode
    rw [reported_of_error (wordRule_of_reserved hset p k)]
    refine Nat.one_le_iff_ne_zero.mpr fun hzero => ?_
    obtain rfl : statusAt (opField cw) 0 = e := hzero ▸ statusAt_priority h
    exact h hset.assigned
  · exact priority_reported_le_of_free hset h

end Sys2Proof.Machine
end

section
/-! The statements about statuses and responses (60_exceptions.md). -/

namespace Sys2Proof.Machine

/-- Settles O22: the word's rule is refused for a cause, and for none where an earlier one is met; and an opcode has one
status at each place of the order. -/
theorem reportedStatusIsTheFirstThatApplies : Obligations.ReportedStatusIsTheFirstThatApplies := by
  intro s t cw rest r hport hstep hr
  have hstatus := step_reports hport hstep hr
  have hcause : StatusCause s.params s.block cw r.status := hstatus ▸ statusCause_reported cw s.params s.block
  refine ⟨hcause, fun e he => ?_, fun e e' he he' => he.eq_of_priority_eq he'⟩
  have hle : statusPriority r.status ≤ statusPriority e := hstatus ▸ priority_reported_le he
  exact hle.eq_or_lt.imp_left fun heq => (hcause.eq_of_priority_eq he heq).symm

/-- Settles O23: a refusal is never E_OK and keeps the block, and a performed command ends with the decoder's run, which
ends quiescent. -/
theorem refusedWordChangesNoElement : Obligations.RefusedWordChangesNoElement := by
  intro s t cw rest r hport hstep hr
  obtain ⟨e, hrule, rfl, rfl⟩ | ⟨k, d, -, rfl, rfl⟩ := step_answers hport hstep hr
  · exact ⟨fun _ => ⟨rfl, rfl⟩, fun hok => absurd hok (statusCause_of_wordRule_error hrule).right⟩
  · exact ⟨fun hne => absurd rfl hne, fun _ => quiescent_decRun _ _⟩

/-- Settles O29: `le16` and `le32` put the low byte first, and each status has its own code. -/
theorem responsesAsBytes : Obligations.ResponsesAsBytes :=
  ⟨fun _ => rfl, fun hi lo => congrArg (0x00 :: ·) (le16_append hi lo),
    fun b3 b2 b1 b0 => congrArg (0x00 :: ·) (le32_append b3 b2 b1 b0), fun _ => rfl, rfl⟩

end Sys2Proof.Machine
end

section
/-! The statements about reset, and about the step being defined everywhere (70_reset_and_hazards.md). -/

namespace Sys2Proof.Machine

/-- Settles O19: a word's step is its transition, which answers once; and the run over the whole port is the fold of its
words, with nothing left behind them. -/
theorem everyWordHasOneNextStateAndOneResponse : Obligations.EveryWordHasOneNextStateAndOneResponse := by
  constructor
  · rintro ⟨k, p, port, responses⟩ cw rest hport
    obtain rfl : port = cw :: rest := hport
    obtain ⟨k', r, -, hstep⟩ := step_eq_transition p k cw
    exact ⟨_, r, hstep rest responses, rfl, rfl, rfl⟩
  · intro s
    obtain ⟨hrun, hlength⟩ := runIsTheFoldOfItsWords s s.port [] (List.append_nil s.port).symm
    exact ⟨_, _, hrun, rfl, rfl, hlength⟩

/-- Settles O18: the step's branch for an empty port. -/
theorem stepOnAnEmptyPortIsIdle : Obligations.StepOnAnEmptyPortIsIdle := by
  intro s hport
  rw [step, hport]

/-- Settles O30: `Block.reset` holds the stated values whatever the parameters are, and its RXBUF is too short for a
decoder step. -/
theorem resetLeavesTheStatedValues : Obligations.ResetLeavesTheStatedValues :=
  fun p => ⟨rfl, quiescent_reset p, rfl⟩

end Sys2Proof.Machine
end
